-- ==== Sys2Proof/Word.lean ====
section
/-! DEFINITION. The word types of the BFDE engine (spec/00_scope.md rule R6, section 5.1). -/

namespace Sys2Proof

/-- A register value: the 64-bit two's-complement pattern `bits64(v)` of an `i64` (R10, R11).
`BitVec.toInt` is the spec's `signed64`, `BitVec.ofInt 64` its `bits64`. -/
abbrev Word := BitVec 64

/-- A `u64`: the program counter (R15), `STEPS` (R22) and `STEP_BOUND` (R23). -/
abbrev U64 := BitVec 64

/-- A cell of the tape: a `u8` (R31). -/
abbrev TapeCell := BitVec 8

/-- An element of the output stream: a `u3` (R25, R37). -/
abbrev OutElem := BitVec 3

end Sys2Proof
end

