-- ==== Sys2Proof/Config.lean ====
section
/-! DEFINITION. What is fixed for the machine, and the values the model names where the spec leaves the
choice to the host. The engine is deterministic (R8) and the spec leaves no value open: there is no
free value here. -/

namespace Sys2Proof.Config

/-- `LEN_MAX`, the largest tape length (R6, decision D13). -/
def lenMax : Nat := 2 ^ 63 - 1

/-- DESIGN CHOICE (log 2). What a tape index with no entry in the stored list reads as. A launch hands
over every cell of the tape, so this only says how a tape is written down. -/
def unlistedCell : TapeCell := 0

/-- DESIGN CHOICE (log 1). The launch arguments `A0`, `B0`, `C0` that stand in `State.reset`. -/
def resetRegister : Word := 0

/-- DESIGN CHOICE (log 1). The launch argument `STEP_BOUND` that stands in `State.reset`. -/
def resetStepBound : U64 := 0

end Sys2Proof.Config
end

