-- ==== Sys2Proof/Syntax.lean ====
section
/-! DEFINITION. The instructions of the engine: the closed set of eight (spec/00_scope.md R7,
spec/30_encoding.md R48, R63). -/

namespace Sys2Proof

/-- The eight operations of the opcode table (R48), in the order of their codes. -/
inductive Opcode where
  | adv | bxl | bst | jnz | bxc | out | bdv | cdv
  deriving DecidableEq, Repr

/-- How an operation uses its operand cell (R51). -/
inductive OperandMode where
  | literal | combo | ignored
  deriving DecidableEq, Repr

/-- The three registers: `x[0] = A`, `x[1] = B`, `x[2] = C` (R10). -/
inductive Reg where
  | a | b | c
  deriving DecidableEq, Repr

/-- One instruction: an operation and its operand cell as it stands on the tape (R45, R46). -/
inductive Instr where
  /-- ADV, opcode 0 (R66). -/
  | adv (opd : TapeCell)
  /-- BXL, opcode 1 (R70). -/
  | bxl (opd : TapeCell)
  /-- BST, opcode 2 (R71). -/
  | bst (opd : TapeCell)
  /-- JNZ, opcode 3 (R75). -/
  | jnz (opd : TapeCell)
  /-- BXC, opcode 4 (R72). -/
  | bxc (opd : TapeCell)
  /-- OUT, opcode 5 (R80). -/
  | out (opd : TapeCell)
  /-- BDV, opcode 6 (R67). -/
  | bdv (opd : TapeCell)
  /-- CDV, opcode 7 (R68). -/
  | cdv (opd : TapeCell)
  deriving DecidableEq, Repr

/-- The operation of an instruction. -/
def Instr.opcode : Instr → Opcode
  | .adv _ => .adv
  | .bxl _ => .bxl
  | .bst _ => .bst
  | .jnz _ => .jnz
  | .bxc _ => .bxc
  | .out _ => .out
  | .bdv _ => .bdv
  | .cdv _ => .cdv

/-- The operand cell of an instruction. -/
def Instr.operand : Instr → TapeCell
  | .adv v | .bxl v | .bst v | .jnz v | .bxc v | .out v | .bdv v | .cdv v => v

end Sys2Proof
end

