-- ==== Sys2Proof/WellFormed.lean ====
section
/-! DEFINITION. Well-formedness of one instruction: the premises `P_RANGE`, `P_COMBO` and `P_JEVEN` of
spec/20_memory.md R32 on its cells. The engine checks none of them before it executes (R32); the
premises of a whole tape stand in Sys2Proof/Safety.lean. -/

namespace Sys2Proof

/-- `P_COMBO`: the operand cell of a Combo-mode instruction is 0 to 6. Any other value has no meaning
and raises `InvalidOperand` (R53). -/
def Instr.operandLegal : Instr → Bool
  | .adv v | .bst v | .out v | .bdv v | .cdv v => decide (v.toNat ≤ 6)
  | .bxl _ | .jnz _ | .bxc _ => true

/-- `P_RANGE` on the operand cell: 0 to 7. -/
def Instr.operandInRange (i : Instr) : Bool := decide (i.operand.toNat ≤ 7)

/-- `P_JEVEN`: the operand cell of a JNZ is even. -/
def Instr.jumpEven : Instr → Bool
  | .jnz v => decide (v.toNat % 2 = 0)
  | .adv _ | .bxl _ | .bst _ | .bxc _ | .out _ | .bdv _ | .cdv _ => true

/-- An instruction of a well-formed program (R32, glossary of spec/00_scope.md). -/
def Instr.wellFormed (i : Instr) : Bool := i.operandLegal && i.operandInRange && i.jumpEven

end Sys2Proof
end

