-- ==== Sys2Proof/Decode.lean ====
section
/-! DEFINITION. Decoding and encoding (spec/30_encoding.md R45 to R57). Every instruction is two cells,
the opcode cell first. -/

namespace Sys2Proof

/-- Why a sequence of cells is no instruction. -/
inductive DecodeError where
  /-- The opcode cell is 8 to 255 (R52). -/
  | invalidOpcode (opc : TapeCell)
  /-- The opcode cell is the last cell there is (R36, R90). -/
  | operandMissing
  /-- There is no cell at all. -/
  | noCell
  deriving DecidableEq, Repr

/-- The opcode table (R48): a pure lookup keyed by the 3-bit opcode. -/
def opcodeOf (code : BitVec 3) : Opcode :=
  match code.toNat with
  | 0 => .adv
  | 1 => .bxl
  | 2 => .bst
  | 3 => .jnz
  | 4 => .bxc
  | 5 => .out
  | 6 => .bdv
  | _ => .cdv

/-- The code of an operation (R48, column "Opcode cell"). -/
def Opcode.code : Opcode → BitVec 3
  | .adv => 0
  | .bxl => 1
  | .bst => 2
  | .jnz => 3
  | .bxc => 4
  | .out => 5
  | .bdv => 6
  | .cdv => 7

/-- The operand mode of an operation: a fixed property of the opcode (R51). -/
def Opcode.mode : Opcode → OperandMode
  | .adv | .bst | .out | .bdv | .cdv => .combo
  | .bxl | .jnz => .literal
  | .bxc => .ignored

/-- The instruction of an operation and an operand cell. -/
def Opcode.instr : Opcode → TapeCell → Instr
  | .adv, v => .adv v
  | .bxl, v => .bxl v
  | .bst, v => .bst v
  | .jnz, v => .jnz v
  | .bxc, v => .bxc v
  | .out, v => .out v
  | .bdv, v => .bdv v
  | .cdv, v => .cdv v

/-- The opcode table as spec/opcode_table.json gives it (R48): operation, `match` and `mask` over the
pair word `W`. The decoder does not read it: that the two agree is a statement. -/
def opcodeTable : List (Opcode × BitVec 16 × BitVec 16) :=
  [(.adv, 0x0000, 0xFF00), (.bxl, 0x0100, 0xFF00), (.bst, 0x0200, 0xFF00), (.jnz, 0x0300, 0xFF00),
   (.bxc, 0x0400, 0xFF00), (.out, 0x0500, 0xFF00), (.bdv, 0x0600, 0xFF00), (.cdv, 0x0700, 0xFF00)]

/-- Format `P` (R46): `opc_hi`, bits 7 to 3 of the opcode cell, must be zero; bits 2 to 0 are the
opcode. The upper bits are not masked off (R52). The operand cell is not examined here: an illegal
Combo operand is the executing instruction's `InvalidOperand` (R57, R58 line 6). -/
def decodePair (opc opd : TapeCell) : Except DecodeError Instr :=
  if opc.extractLsb' 3 5 = 0 then .ok ((opcodeOf (opc.extractLsb' 0 3)).instr opd)
  else .error (.invalidOpcode opc)

/-- Decode the instruction at the head of a sequence of cells; answers the cells after it as well. -/
def decode : List TapeCell → Except DecodeError (Instr × List TapeCell)
  | [] => .error .noCell
  | [_] => .error .operandMissing
  | opc :: opd :: rest =>
    match decodePair opc opd with
    | .ok i => .ok (i, rest)
    | .error e => .error e

/-- The two cells of an instruction (R46, R48, R59). -/
def encode (i : Instr) : List TapeCell := [i.opcode.code.setWidth 8, i.operand]

/-- The cells of a sequence of instructions, one after the other (R59, R60). -/
def assemble : List Instr → List TapeCell
  | [] => []
  | i :: is => encode i ++ assemble is

/-- The pair word `W` of R47: the opcode cell in bits 15 to 8, the operand cell in bits 7 to 0. It is
the numbering of spec/opcode_table.json (log 6); bits from `nbits` up are zero. -/
def tableCells (nbits w : Nat) : TapeCell × TapeCell :=
  let v := w % 2 ^ min nbits 16
  (BitVec.ofNat 8 (v / 256), BitVec.ofNat 8 v)

/-- The instruction the decoder reads from a word of the opcode table. -/
def decodeTableWord (nbits w : Nat) : Option Instr :=
  match decode [(tableCells nbits w).1, (tableCells nbits w).2] with
  | .ok (i, _) => some i
  | .error _ => none

end Sys2Proof
end

