-- ==== Sys2Proof/Machine/State.lean ====
section
/-! DEFINITION. The state of one engine (spec/10_state.md R26), with the launch constants beside it, and
the state after reset. -/

namespace Sys2Proof.Machine

/-- `RUNSTATE` (R20). -/
inductive RunState where
  | running | halted | faulted
  deriving DecidableEq, Repr

/-- The five fault causes by name (R85, R91): what the host is told (R98). -/
inductive CauseName where
  | invalidOpcode | invalidOperand | stepBoundExceeded | invalidRegisterState | operandFetchPastEnd
  deriving DecidableEq, Repr

/-- The value of `CAUSE` when it is not `None` (R21): a cause with the information `raise` records
(R85, column "Info recorded"; R92; log 5). -/
inductive Cause where
  /-- Raised by the step at decode; the opcode cell (R86). -/
  | invalidOpcode (opc : TapeCell)
  /-- Raised by ADV, BST, OUT, BDV, CDV; the operand cell (R87). -/
  | invalidOperand (opd : TapeCell)
  /-- Raised by the step before fetch; `pc` (R88). -/
  | stepBoundExceeded (pc : U64)
  /-- Raised by ADV, BDV, CDV; `A` and the shift count (R89). -/
  | invalidRegisterState (a n : Word)
  /-- Raised by the step at fetch; `pc` (R90). -/
  | operandFetchPastEnd (pc : U64)
  deriving DecidableEq, Repr

/-- The tape as stored: the cells that differ from `Config.unlistedCell`, by index. -/
abbrev Memory := List Host.Cell

/-- The state of one engine (R26) and the constants of its launch (R23, R24, R31). -/
structure State where
  /-- Register `A` (R10). -/
  a : Word
  /-- Register `B` (R10). -/
  b : Word
  /-- Register `C` (R10). -/
  c : Word
  /-- The program counter: the tape index of the next opcode cell (R15). -/
  pc : U64
  /-- The output stream, oldest element first (R25). -/
  out : List OutElem
  /-- `RUNSTATE` (R20). -/
  runState : RunState
  /-- `CAUSE` (R21). -/
  cause : Option Cause
  /-- `STEPS`, the count of instructions executed in this run (R22). -/
  steps : U64
  /-- The program tape, constant for the run (R31); cells at indices below `len`. -/
  tape : Memory
  /-- `LEN`, the number of cells of the tape, constant for the run (R24). -/
  len : Nat
  /-- `STEP_BOUND`, constant for the run (R23). -/
  stepBound : U64
  deriving DecidableEq, Repr

/-- Why a step answers no next state. The faults of the ISA are not among them: they are next states
with `RUNSTATE = Faulted` (R96, log 4). Both are safe: they only say that the machine goes no further. -/
inductive Fault where
  /-- Raised by `step` when the run has ended well: in `Halted` the engine does nothing more (R58).
  Safe (log 3). -/
  | runHalted
  /-- Raised by `step` when the run has ended in a fault: no step is defined from `Faulted` (R96).
  Safe (log 3). -/
  | runFaulted
  deriving DecidableEq, Repr

/-- Instructions without a meaning. -/
inductive Refusal where
  /-- Raised by an arm of `exec` whose instruction has no meaning yet; no arm is left. Safe. -/
  | notModelled (mnemonic : String)
  deriving DecidableEq, Repr

/-- The result of a run, all the host receives (R115): `Ok(OUT)` or `Err(CAUSE)`. -/
inductive Result where
  | ok (out : List OutElem)
  | err (cause : CauseName)
  deriving DecidableEq, Repr

/-- The state right after the launch (R27, R110) with an empty tape and the launch arguments the model
names in Config (log 1). `launch` of Machine/Ops.lean gives the state after any launch. -/
def State.reset : State where
  a := Config.resetRegister
  b := Config.resetRegister
  c := Config.resetRegister
  pc := 0
  out := []
  runState := .running
  cause := none
  steps := 0
  tape := []
  len := 0
  stepBound := Config.resetStepBound

end Sys2Proof.Machine
end

