-- ==== Sys2Proof/Machine/Ops.lean ====
section
/-! DEFINITION. The named operations over the tape, the registers, the output stream and the run state;
raising a fault; launch and result. -/

namespace Sys2Proof.Machine

/-! The tape. -/

/-- The canonical form: indices strictly rising, no entry equal to what an unlisted index reads as. -/
abbrev Memory.wf (m : Memory) : Prop :=
  m.Pairwise (fun x y => x.1 < y.1) ∧ ∀ x ∈ m, x.2 ≠ Config.unlistedCell

/-- The cell stored at an index. -/
def Memory.read : Memory → Nat → TapeCell
  | [], _ => Config.unlistedCell
  | (j, w) :: m, i => if i = j then w else Memory.read m i

/-- Store a cell. No instruction does (R30): only the load of a tape. -/
def Memory.write : Memory → Nat → TapeCell → Memory
  | [], i, v => if v = Config.unlistedCell then [] else [(i, v)]
  | (j, w) :: m, i, v =>
    if i < j then
      if v = Config.unlistedCell then (j, w) :: m else (i, v) :: (j, w) :: m
    else if i = j then
      if v = Config.unlistedCell then m else (i, v) :: m
    else (j, w) :: Memory.write m i v

/-- The stored form of a listing of cells (R60) whose first cell has index `i`. -/
def Memory.ofCellsFrom : Nat → List TapeCell → Memory
  | _, [] => []
  | i, v :: vs =>
    if v = Config.unlistedCell then Memory.ofCellsFrom (i + 1) vs
    else (i, v) :: Memory.ofCellsFrom (i + 1) vs

/-- `MemRead(i, 1)` (spec/00_scope.md section 5.3, R33): `tape[i]`, and nothing at `i >= LEN` (R36). -/
def State.memRead (s : State) (i : Nat) : Option TapeCell :=
  if i < s.len then some (s.tape.read i) else none

/-- The fetch (R33): the opcode cell at `pc` and the operand cell at `pc + 1`. Nothing when one of them
does not exist, and then neither is read (R36). -/
def State.fetchPair (s : State) : Option (TapeCell × TapeCell) :=
  match s.memRead s.pc.toNat, s.memRead (s.pc.toNat + 1) with
  | some opc, some opd => some (opc, opd)
  | _, _ => none

/-! The registers (R10, R12): no register is hard-wired. -/

/-- Read a register. -/
def State.getReg (s : State) : Reg → Word
  | .a => s.a
  | .b => s.b
  | .c => s.c

/-- Write a register. -/
def State.setReg (s : State) : Reg → Word → State
  | .a, v => { s with a := v }
  | .b, v => { s with b := v }
  | .c, v => { s with c := v }

/-! The output stream. -/

/-- `OutAppend(v)` (R38): always succeeds (R37). -/
def State.outAppend (s : State) (v : OutElem) : State := { s with out := s.out ++ [v] }

/-! Program counter and step count. -/

/-- `pc <- pc + 2` (R16). -/
def State.advance (s : State) : State := { s with pc := s.pc + 2 }

/-- `pc <- target` (R75): absolute. -/
def State.jumpTo (s : State) (target : U64) : State := { s with pc := target }

/-- `STEPS <- STEPS + 1` (R22, R58 line 7): every instruction that completes without fault. -/
def State.retire (s : State) : State := { s with steps := s.steps + 1 }

/-- An instruction that is no taken jump completes: `pc <- pc + 2`, one step counted (R16, R58). -/
def complete (s : State) : Host.Outcome State Fault Refusal := .next s.advance.retire

/-- A taken jump completes: the target is not followed by `+ 2`, one step counted (R16, R75). -/
def completeAt (target : U64) (s : State) : Host.Outcome State Fault Refusal :=
  .next (s.jumpTo target).retire

/-! End of the run. -/

/-- The normal halt (R93): `RUNSTATE <- Halted` and nothing else. -/
def State.halt (s : State) : State := { s with runState := .halted }

/-- `RUNSTATE <- Faulted`, `CAUSE <- the cause` (R96); everything else as before (R97). -/
def State.enterFault (s : State) (c : Cause) : State :=
  { s with runState := .faulted, cause := some c }

/-- `raise` (spec/00_scope.md section 5.3, R96): taking a fault. It is a next state. There is no return
from a fault (R99). -/
def raise (c : Cause) (s : State) : Host.Outcome State Fault Refusal := .next (s.enterFault c)

/-- The name of a cause. -/
def Cause.name : Cause → CauseName
  | .invalidOpcode _ => .invalidOpcode
  | .invalidOperand _ => .invalidOperand
  | .stepBoundExceeded _ => .stepBoundExceeded
  | .invalidRegisterState _ _ => .invalidRegisterState
  | .operandFetchPastEnd _ => .operandFetchPastEnd

/-- The cause codes (R91). -/
def CauseName.code : CauseName → Nat
  | .invalidOpcode => 1
  | .invalidOperand => 2
  | .stepBoundExceeded => 3
  | .invalidRegisterState => 4
  | .operandFetchPastEnd => 5

/-- The code of `CAUSE`; 0 is `None` (R91). -/
def State.causeCode (s : State) : Nat :=
  match s.cause with
  | none => 0
  | some c => c.name.code

/-! The host interface. -/

/-- Launch (R27, R110): the state after it, for any arguments (R111). -/
def launch (cells : List TapeCell) (a0 b0 c0 : Word) (bound : U64) : State where
  a := a0
  b := b0
  c := c0
  pc := 0
  out := []
  runState := .running
  cause := none
  steps := 0
  tape := Memory.ofCellsFrom 0 cells
  len := cells.length
  stepBound := bound

/-- The result of a run (R115); nothing while it is running (R117). -/
def State.result (s : State) : Option Result :=
  match s.runState, s.cause with
  | .running, _ => none
  | .halted, _ => some (.ok s.out)
  | .faulted, some c => some (.err c.name)
  | .faulted, none => none

/-- Place a pair at `pc` so that the next step executes it (log 7): the two cells, a tape long enough
to hold them, a running engine and one step of budget where there is none. -/
def State.loadPair (s : State) (opc opd : TapeCell) : State :=
  { s with
    tape := (s.tape.write s.pc.toNat opc).write (s.pc.toNat + 1) opd
    len := max s.len (s.pc.toNat + 2)
    runState := .running
    cause := none
    stepBound := if s.steps = s.stepBound then s.steps + 1 else s.stepBound }

end Sys2Proof.Machine
end

