-- ==== Sys2Proof/Machine/Operands.lean ====
section
/-! DEFINITION. The operand resolver (spec/30_encoding.md R49 to R55): a function of the operand cell, the
mode and the registers as they are before the instruction; it holds no state (R62). -/

namespace Sys2Proof.Machine

/-- `literal(v)` (R49): the cell itself, zero-extended to 64 bits. -/
def literal (v : TapeCell) : BitVec 64 := v.setWidth 64

/-- `combo(v)` (R50): 0 to 3 are themselves, 4, 5, 6 are `A`, `B`, `C`, no other value has one. -/
def combo (s : State) (v : TapeCell) : Option Word :=
  match v.toNat with
  | 0 => some 0
  | 1 => some 1
  | 2 => some 2
  | 3 => some 3
  | 4 => some (s.getReg .a)
  | 5 => some (s.getReg .b)
  | 6 => some (s.getReg .c)
  | _ => none

/-- Resolve a Combo operand and go on with its value, or `raise InvalidOperand(v)` (R50, R53, R87). -/
def withCombo (v : TapeCell) (s : State) (k : Word → Host.Outcome State Fault Refusal) :
    Host.Outcome State Fault Refusal :=
  match combo s v with
  | some n => k n
  | none => raise (.invalidOperand v) s

/-- `bits64(v)[2:0]`, that is `v mod 8` (R11): the `AND 7` of BST and OUT. -/
def low3 (v : Word) : OutElem := v.extractLsb' 0 3

end Sys2Proof.Machine
end

