-- ==== Sys2Proof/Machine/Flags.lean ====
section
/-! DEFINITION. The engine has no flags, condition codes or predicates (spec/10_state.md R19). What it
tests, it tests on register values at the moment an instruction executes: these tests. -/

namespace Sys2Proof.Machine

/-- `v < 0`: the sign bit, bit 63 (R11). The test of ADV, BDV and CDV (R65). -/
def isNegative (v : Word) : Bool := v.getLsbD 63

/-- `v != 0` on all 64 bits: the test of JNZ (R75). -/
def isNonZero (v : Word) : Bool := decide (v ≠ 0)

end Sys2Proof.Machine
end

