-- ==== Sys2Proof/Machine/Bitwise.lean ====
section
/-! DEFINITION. The bitwise family: BXL, BST, BXC (spec/41_bitwise.md). All act on the 64-bit patterns
(R11) and write `B`. -/

namespace Sys2Proof.Machine

/-- BXL (R70): `B <- B XOR literal(opd)`; every operand cell is legal (R55). -/
def execBxl (opd : TapeCell) (s : State) : Host.Outcome State Fault Refusal :=
  complete (s.setReg .b (s.getReg .b ^^^ literal opd))

/-- BST (R71): `B <- combo(opd) AND 7`. -/
def execBst (opd : TapeCell) (s : State) : Host.Outcome State Fault Refusal :=
  withCombo opd s fun v => complete (s.setReg .b ((low3 v).setWidth 64))

/-- BXC (R72): `B <- B XOR C`; the operand cell is ignored (R54). -/
def execBxc (_opd : TapeCell) (s : State) : Host.Outcome State Fault Refusal :=
  complete (s.setReg .b (s.getReg .b ^^^ s.getReg .c))

end Sys2Proof.Machine
end

