-- ==== Sys2Proof/Machine/Control.lean ====
section
/-! DEFINITION. Control transfer: JNZ (spec/42_control_transfer.md). -/

namespace Sys2Proof.Machine

/-- JNZ (R75): absolute jump to `literal(opd)` when `A != 0`, else fall through. The target is checked
neither against `LEN` nor for parity (R76). -/
def execJnz (opd : TapeCell) (s : State) : Host.Outcome State Fault Refusal :=
  if isNonZero (s.getReg .a) then completeAt (literal opd) s else complete s

end Sys2Proof.Machine
end

