-- ==== Sys2Proof/Machine/Output.lean ====
section
/-! DEFINITION. Output: OUT (spec/43_output.md). -/

namespace Sys2Proof.Machine

/-- OUT (R80): append `combo(opd) AND 7` to the output stream; no register changes (R81). -/
def execOut (opd : TapeCell) (s : State) : Host.Outcome State Fault Refusal :=
  withCombo opd s fun v => complete (s.outAppend (low3 v))

end Sys2Proof.Machine
end

