-- ==== Sys2Proof/Machine/Shift.lean ====
section
/-! DEFINITION. The shift (divide) family: ADV, BDV, CDV (spec/40_shift_divide.md). -/

namespace Sys2Proof.Machine

/-- `shr(a, n)` (R65), for `a >= 0` and `n >= 0`: `floor(a / 2^n)`. For `n >= 63` that is 0, and the
power is not computed (decision D6: the count is not reduced modulo 64). The law
`shr_toNat` of Laws/Operands.lean says that it is the division for every count. -/
def shr (a n : Word) : Word :=
  if n.toNat < 63 then BitVec.ofNat 64 (a.toNat / 2 ^ n.toNat) else 0

/-- `DV(d, opd)` (R65): the common body. `InvalidOperand` is tested before `InvalidRegisterState`; `A`
and the count are read before the write. -/
def divide (d : Reg) (opd : TapeCell) (s : State) : Host.Outcome State Fault Refusal :=
  withCombo opd s fun n =>
    if isNegative s.a || isNegative n then raise (.invalidRegisterState s.a n) s
    else complete (s.setReg d (shr s.a n))

/-- ADV (R66): `A <- shr(A, combo(opd))`. -/
def execAdv (opd : TapeCell) (s : State) : Host.Outcome State Fault Refusal := divide .a opd s

/-- BDV (R67): `B <- shr(A, combo(opd))`. -/
def execBdv (opd : TapeCell) (s : State) : Host.Outcome State Fault Refusal := divide .b opd s

/-- CDV (R68): `C <- shr(A, combo(opd))`. -/
def execCdv (opd : TapeCell) (s : State) : Host.Outcome State Fault Refusal := divide .c opd s

end Sys2Proof.Machine
end

