-- ==== Sys2Proof/Machine/Dispatch.lean ====
section
/-! DEFINITION. Dispatch: one arm per instruction (spec/30_encoding.md R58 line 6, R63). -/

namespace Sys2Proof.Machine

def exec (i : Instr) (s : State) : Host.Outcome State Fault Refusal :=
  match i with
  | .adv opd => Sys2Proof.Machine.execAdv opd s
  | .bxl opd => Sys2Proof.Machine.execBxl opd s
  | .bst opd => Sys2Proof.Machine.execBst opd s
  | .jnz opd => Sys2Proof.Machine.execJnz opd s
  | .bxc opd => Sys2Proof.Machine.execBxc opd s
  | .out opd => Sys2Proof.Machine.execOut opd s
  | .bdv opd => Sys2Proof.Machine.execBdv opd s
  | .cdv opd => Sys2Proof.Machine.execCdv opd s

end Sys2Proof.Machine
end

