-- ==== Sys2Proof/Machine/Cycle.lean ====
section
/-! DEFINITION. The execution cycle (spec/30_encoding.md R58), lines 1 to 7, of a running engine. -/

namespace Sys2Proof.Machine

/-- Lines 3 to 7 of `Step()`: fetch both cells or `raise OperandFetchPastEnd`, decode the opcode or
`raise InvalidOpcode`, execute. Line 7 is in `complete` and `completeAt`: only an instruction that
raised nothing counts. -/
def fetchAndExecute (s : State) : Host.Outcome State Fault Refusal :=
  match s.fetchPair with
  | none => raise (.operandFetchPastEnd s.pc) s
  | some (opc, opd) =>
    match decodePair opc opd with
    | .ok i => exec i s
    | .error _ => raise (.invalidOpcode opc) s

/-- `Step()` (R58): the halt test, then the budget test, then fetch and execute (R94). -/
def cycle (s : State) : Host.Outcome State Fault Refusal :=
  if s.len ≤ s.pc.toNat then .next s.halt
  else if s.steps = s.stepBound then raise (.stepBoundExceeded s.pc) s
  else fetchAndExecute s

end Sys2Proof.Machine
end

