-- ==== Sys2Proof/Machine/Step.lean ====
section
/-! DEFINITION. The step function: `Step()` of spec/30_encoding.md R58, defined only when
`RUNSTATE = Running`. -/

namespace Sys2Proof.Machine

/-- One call of `Step()`. In `Halted` and `Faulted` no step is defined (R58, R96): the model stops there
(log 3). -/
def step (s : State) : Host.Outcome State Fault Refusal :=
  match s.runState with
  | .running => cycle s
  | .halted => .fault .runHalted
  | .faulted => .fault .runFaulted

/-- `s` with the instruction of a word of the opcode table where the next step fetches it (log 7). -/
def State.withFetchWord (s : State) (nbits w : Nat) : State :=
  s.loadPair (tableCells nbits w).1 (tableCells nbits w).2

end Sys2Proof.Machine
end

