-- ==== Sys2Proof/Machine/Assembler.lean ====
section
/-! DEFINITION. The assembler syntax of spec/30_encoding.md R59: one instruction a line, `MNEMONIC n`,
with the raw operand cell in decimal and comments from `;`. No meaning hangs on it (decision D22). -/

namespace Sys2Proof.Machine

/-- The mnemonic of an operation (R48, column "Mnemonic"). -/
def mnemonic : Opcode → List Char
  | .adv => ['A', 'D', 'V']
  | .bxl => ['B', 'X', 'L']
  | .bst => ['B', 'S', 'T']
  | .jnz => ['J', 'N', 'Z']
  | .bxc => ['B', 'X', 'C']
  | .out => ['O', 'U', 'T']
  | .bdv => ['B', 'D', 'V']
  | .cdv => ['C', 'D', 'V']

/-- The operation of a mnemonic; upper case only (R59). -/
def opcodeOfMnemonic (m : List Char) : Option Opcode :=
  [Opcode.adv, .bxl, .bst, .jnz, .bxc, .out, .bdv, .cdv].find? fun op => mnemonic op == m

/-- A decimal number of one or more digits. -/
def decimal (ds : List Char) : Option Nat :=
  if ds.isEmpty then none
  else ds.foldl (fun n d => n.bind fun k =>
    if d.isDigit then some (10 * k + (d.toNat - 48)) else none) (some 0)

/-- The words of a line: what stands between spaces, before a comment. -/
def lineWords (line : List Char) : List (List Char) :=
  ((line.takeWhile (· ≠ ';')).splitOn ' ').filter fun w => !w.isEmpty

/-- The instruction a line stands for: a mnemonic and a number 0 to 255 (R59). -/
def assembleLine (line : List Char) : Option Instr :=
  match lineWords line with
  | [m, n] =>
    match opcodeOfMnemonic m, decimal n with
    | some op, some v => if v ≤ 255 then some (op.instr (BitVec.ofNat 8 v)) else none
    | _, _ => none
  | _ => none

/-- The line of an instruction (R59): the mnemonic and the raw operand cell, in both modes. -/
def instrLine (i : Instr) : List Char :=
  mnemonic i.opcode ++ ' ' :: Nat.toDigits 10 i.operand.toNat

/-- The instructions of a program text, line by line (R59); a line with nothing before its comment stands
for no instruction; `none` when a line is no instruction. -/
def assembleLines : List (List Char) → Option (List Instr)
  | [] => some []
  | l :: ls =>
    if (lineWords l).isEmpty then assembleLines ls
    else
      match assembleLine l, assembleLines ls with
      | some i, some is => some (i :: is)
      | _, _ => none

/-- The listing form of a program (R60): the cells in index order, in decimal, separated by commas. -/
def listing (cells : List TapeCell) : List Char :=
  ((cells.map fun v => Nat.toDigits 10 v.toNat).intersperse [',']).flatten

end Sys2Proof.Machine
end

