-- ==== Sys2Proof/Safety.lean ====
section
/-! DEFINITION. Runs, the invariants of the machine and what counts as a safe run: the terms the
statements use. -/

namespace Sys2Proof.Machine

/-- At most `k` calls of `Step()` (R114); a machine that stops stays in its last state. -/
def runFor : Nat → State → State
  | 0, s => s
  | k + 1, s =>
    match step s with
    | .next t => runFor k t
    | .fault _ => s
    | .refused _ => s

/-- The final state of the run from a launch (R114): `STEP_BOUND + 1` calls of `Step()` are always
enough (R100). -/
def finalState (s : State) : State := runFor (s.stepBound.toNat + 1) s

/-- What the host receives from the run of a launch (R115). -/
def runResult (cells : List TapeCell) (a0 b0 c0 : Word) (bound : U64) : Option Result :=
  (finalState (launch cells a0 b0 c0 bound)).result

/-- Apply a change of state to the next state of an outcome; a stop stays as it is. -/
def mapNext (f : State → State) :
    Host.Outcome State Fault Refusal → Host.Outcome State Fault Refusal
  | .next t => .next (f t)
  | .fault r => .fault r
  | .refused r => .refused r

/-- The invariant of every run (R18, R20, R21, R22, R37, R116). -/
structure State.Inv (s : State) : Prop where
  /-- The stored tape is canonical (log 2). -/
  tapeWf : Memory.wf s.tape
  /-- Nothing is stored at or past `LEN` (R40). -/
  tapeWithin : ∀ x ∈ s.tape, x.1 < s.len
  /-- `LEN <= LEN_MAX` (R6). -/
  lenBound : s.len ≤ Config.lenMax
  /-- The largest reachable `pc` (R18). -/
  pcBound : s.pc.toNat ≤ max s.len 255
  /-- `|OUT| <= STEPS` (R37). -/
  outBound : s.out.length ≤ s.steps.toNat
  /-- `STEPS <= STEP_BOUND` (R37). -/
  stepsBound : s.steps.toNat ≤ s.stepBound.toNat
  /-- `CAUSE` holds a cause exactly in `Faulted` (R21). -/
  causeIff : s.runState = .faulted ↔ s.cause.isSome = true
  /-- `Halted` is entered only past the end of the tape (R93, R116). -/
  haltedPast : s.runState = .halted → s.len ≤ s.pc.toNat

/-- All three registers are non-negative. -/
structure State.NonNegative (s : State) : Prop where
  a : 0 ≤ s.a.toInt
  b : 0 ≤ s.b.toInt
  c : 0 ≤ s.c.toInt

/-- The instruction at an index of the tape, at any index whose two cells exist and whose opcode cell
is valid. -/
def State.instrAt (s : State) (i : Nat) : Option Instr :=
  match s.memRead i, s.memRead (i + 1) with
  | some opc, some opd => (decodePair opc opd).toOption
  | _, _ => none

/-- A well-formed tape: the four premises `P_EVEN`, `P_RANGE`, `P_COMBO`, `P_JEVEN` of R32. -/
abbrev State.wellFormedTape (s : State) : Prop :=
  s.len % 2 = 0 ∧
  (∀ i < s.len, ∀ v ∈ s.memRead i, v.toNat ≤ 7) ∧
  (∀ k < s.len / 2, ∀ i ∈ s.instrAt (2 * k), i.operandLegal = true) ∧
  (∀ k < s.len / 2, ∀ i ∈ s.instrAt (2 * k), i.jumpEven = true)

/-- The state of a run of a well-formed program launched with non-negative registers (R113): the only
fault it may be in is the used-up budget. -/
structure State.GoodRun (s : State) : Prop where
  tape : s.wellFormedTape
  /-- The source's "always an even index" (R17). -/
  pcEven : s.pc.toNat % 2 = 0
  registers : s.NonNegative
  cause : ∀ c ∈ s.cause, c.name = .stepBoundExceeded

end Sys2Proof.Machine
end

