-- ==== Sys2Proof/Certificates/Slice0/Obligations.lean ====
section
/-! DEFINITION. The statements for the provers. Register values are read as the integers they stand for
(`BitVec.toInt` is `signed64`), so that a result is said in the spec's arithmetic and not in the model's
functions. A faulting instruction and a completing one both answer a next state; where a next state is
written as a record update, every field not named is unchanged. -/

open Sys2Proof Sys2Proof.Machine

/-! Launch and reset. -/

/-- R110: the state a launch produces, for every tape, every three register values and every bound; cell
for cell the tape is the listing, and past its end there is nothing. -/
def Obligations.LaunchGivesTheInitialState : Prop :=
  ∀ (cells : List TapeCell) (a0 b0 c0 : Word) (bound : U64) (s : State),
    s = launch cells a0 b0 c0 bound →
      s.a = a0 ∧ s.b = b0 ∧ s.c = c0 ∧ s.pc = 0 ∧ s.out = [] ∧ s.runState = .running ∧
      s.cause = none ∧ s.steps = 0 ∧ s.stepBound = bound ∧ s.len = cells.length ∧
      ∀ i, s.memRead i = cells[i]?

/-- The model's choice (log 1): the reset state is the launch of the empty tape with zero arguments. It
meets the invariant of every run, and its one step halts. -/
def Obligations.ResetIsTheEmptyLaunch : Prop :=
  State.reset = launch [] 0 0 0 0 ∧ State.reset.Inv ∧
    step State.reset = .next { State.reset with runState := .halted }

/-! Encoding. -/

/-- Decoding and encoding agree in both directions: the decoder reads the cells of an instruction back,
with its operand at every value, and whatever it reads an instruction from starts with that
instruction's cells. -/
def Obligations.DecodeInvertsEncode : Prop :=
  (∀ (i : Instr) (rest : List TapeCell), decode (encode i ++ rest) = .ok (i, rest)) ∧
  ∀ (cells : List TapeCell) (i : Instr) (rest : List TapeCell),
    decode cells = .ok (i, rest) → cells = encode i ++ rest

/-- The decoder agrees with `match` and `mask` of the opcode table on every pair word, and refuses exactly
the words that no row matches. -/
def Obligations.DecoderAgreesWithOpcodeTable : Prop :=
  ∀ w : BitVec 16,
    (∀ row ∈ opcodeTable, w &&& row.2.2 = row.2.1 ↔
      decodeTableWord 16 w.toNat = some (row.1.instr (w.setWidth 8))) ∧
    ((∀ row ∈ opcodeTable, w &&& row.2.2 ≠ row.2.1) ↔ decodeTableWord 16 w.toNat = none)

/-- One word of each operation, written out bit by bit from R46 and R48, and three that are refused. -/
def Obligations.WrittenOutWordsDecode : Prop :=
  decode [0b00000000#8, 0b00000101#8] = .ok (.adv 5, []) ∧
  decode [0b00000001#8, 0b11001000#8] = .ok (.bxl 200, []) ∧
  decode [0b00000010#8, 0b00000100#8] = .ok (.bst 4, []) ∧
  decode [0b00000011#8, 0b00000000#8] = .ok (.jnz 0, []) ∧
  decode [0b00000100#8, 0b00000111#8] = .ok (.bxc 7, []) ∧
  decode [0b00000101#8, 0b00000110#8] = .ok (.out 6, []) ∧
  decode [0b00000110#8, 0b00000011#8] = .ok (.bdv 3, []) ∧
  decode [0b00000111#8, 0b00000101#8] = .ok (.cdv 5, []) ∧
  decode [0b00001000#8, 0b00000000#8] = .error (.invalidOpcode 8) ∧
  decode [0b00001100#8, 0b00000000#8] = .error (.invalidOpcode 12) ∧
  decode [0b00000101#8] = .error .operandMissing

/-- R52: an opcode cell 8 to 255 selects no operation and the step raises `InvalidOpcode` with it; every
opcode cell 0 to 7 selects the operation with that code. -/
def Obligations.IllegalOpcodeIsRejected : Prop :=
  (∀ (opc opd : TapeCell) (rest : List TapeCell), 7 < opc.toNat →
    decode (opc :: opd :: rest) = .error (.invalidOpcode opc)) ∧
  (∀ (opc opd : TapeCell) (rest : List TapeCell), opc.toNat ≤ 7 →
    ∃ i, decode (opc :: opd :: rest) = .ok (i, rest) ∧
      i.opcode.code.toNat = opc.toNat ∧ i.operand = opd) ∧
  ∀ (s : State) (opc opd : TapeCell), s.runState = .running → s.steps ≠ s.stepBound →
    s.memRead s.pc.toNat = some opc → s.memRead (s.pc.toNat + 1) = some opd → 7 < opc.toNat →
    step s = .next { s with runState := .faulted, cause := some (.invalidOpcode opc) }

/-- The assembler's reading of the line of an instruction is the instruction, for every instruction. -/
def Obligations.AssemblerReadsItsOwnLines : Prop :=
  ∀ i : Instr, assembleLine (instrLine i) = some i

/-! The operand resolver. -/

/-- R50: the combo table. -/
def Obligations.ComboTable : Prop :=
  ∀ (s : State) (v : TapeCell),
    (v.toNat ≤ 3 → ∃ n, combo s v = some n ∧ n.toInt = v.toNat) ∧
    (v.toNat = 4 → combo s v = some s.a) ∧
    (v.toNat = 5 → combo s v = some s.b) ∧
    (v.toNat = 6 → combo s v = some s.c) ∧
    (7 ≤ v.toNat → combo s v = none ∧
      ∀ k, withCombo v s k =
        .next { s with runState := .faulted, cause := some (.invalidOperand v) })

/-- R53, R87: each of the five Combo-mode instructions raises `InvalidOperand` on an operand cell of 7 to
255, whatever the registers hold; and nothing else does: not BXL, not JNZ, not BXC, no legal operand. -/
def Obligations.IllegalComboOperandFaults : Prop :=
  (∀ (s : State) (v : TapeCell), 7 ≤ v.toNat →
    ∀ i ∈ [Instr.adv v, .bst v, .out v, .bdv v, .cdv v],
      exec i s = .next { s with runState := .faulted, cause := some (.invalidOperand v) }) ∧
  ∀ (i : Instr) (s t : State) (v : TapeCell), s.cause = none → exec i s = .next t →
    t.cause = some (.invalidOperand v) →
    i ∈ [Instr.adv v, .bst v, .out v, .bdv v, .cdv v] ∧ 7 ≤ v.toNat

/-! The shift family. -/

/-- R65: `shr` is the floor of the division by the power of two for every non-negative value and count,
0 from a count of 63 on (the spec's own decision D6), and up to 62 it is both the logical and the
arithmetic right shift of the pattern. -/
def Obligations.ShrIsFloorDivision : Prop :=
  ∀ a n : Word, 0 ≤ a.toInt → 0 ≤ n.toInt →
    (shr a n).toInt = a.toInt / (2 : Int) ^ n.toInt.toNat ∧
    0 ≤ (shr a n).toInt ∧ (shr a n).toInt ≤ a.toInt ∧
    (63 ≤ n.toInt → (shr a n).toInt = 0) ∧
    (n.toInt ≤ 62 → shr a n = a >>> n.toNat ∧ shr a n = a.sshiftRight n.toNat)

/-- R66: ADV completes with `A = floor(A / 2^n)`, which is between 0 and the old `A`, and nothing else but
`pc` and `STEPS` changed; or it raises one of its two faults and writes nothing. That a negative value
or count faults is the decision D4, D5 of the spec, which R66 repeats. -/
def Obligations.AdvDividesA : Prop :=
  ∀ (s : State) (opd : TapeCell),
    (∀ n, combo s opd = some n → 0 ≤ s.a.toInt → 0 ≤ n.toInt →
      ∃ q : Word, q.toInt = s.a.toInt / (2 : Int) ^ n.toInt.toNat ∧
        0 ≤ q.toInt ∧ q.toInt ≤ s.a.toInt ∧
        exec (.adv opd) s = .next { s with a := q, pc := s.pc + 2, steps := s.steps + 1 }) ∧
    (7 ≤ opd.toNat → exec (.adv opd) s =
      .next { s with runState := .faulted, cause := some (.invalidOperand opd) }) ∧
    (∀ n, combo s opd = some n → s.a.toInt < 0 ∨ n.toInt < 0 → exec (.adv opd) s =
      .next { s with runState := .faulted, cause := some (.invalidRegisterState s.a n) }) ∧
    encode (.adv opd) = [0, opd]

/-- R67: BDV, as ADV with the destination `B`; the count is the old `B` when operand 5 selects it. -/
def Obligations.BdvDividesAIntoB : Prop :=
  ∀ (s : State) (opd : TapeCell),
    (∀ n, combo s opd = some n → 0 ≤ s.a.toInt → 0 ≤ n.toInt →
      ∃ q : Word, q.toInt = s.a.toInt / (2 : Int) ^ n.toInt.toNat ∧
        exec (.bdv opd) s = .next { s with b := q, pc := s.pc + 2, steps := s.steps + 1 }) ∧
    (7 ≤ opd.toNat → exec (.bdv opd) s =
      .next { s with runState := .faulted, cause := some (.invalidOperand opd) }) ∧
    (∀ n, combo s opd = some n → s.a.toInt < 0 ∨ n.toInt < 0 → exec (.bdv opd) s =
      .next { s with runState := .faulted, cause := some (.invalidRegisterState s.a n) }) ∧
    encode (.bdv opd) = [6, opd]

/-- R68: CDV, as ADV with the destination `C`; the count is the old `C` when operand 6 selects it. -/
def Obligations.CdvDividesAIntoC : Prop :=
  ∀ (s : State) (opd : TapeCell),
    (∀ n, combo s opd = some n → 0 ≤ s.a.toInt → 0 ≤ n.toInt →
      ∃ q : Word, q.toInt = s.a.toInt / (2 : Int) ^ n.toInt.toNat ∧
        exec (.cdv opd) s = .next { s with c := q, pc := s.pc + 2, steps := s.steps + 1 }) ∧
    (7 ≤ opd.toNat → exec (.cdv opd) s =
      .next { s with runState := .faulted, cause := some (.invalidOperand opd) }) ∧
    (∀ n, combo s opd = some n → s.a.toInt < 0 ∨ n.toInt < 0 → exec (.cdv opd) s =
      .next { s with runState := .faulted, cause := some (.invalidRegisterState s.a n) }) ∧
    encode (.cdv opd) = [7, opd]

/-! The bitwise family. -/

/-- R70: BXL completes for every operand cell; bits 63 to 8, and so the sign, of `B` do not change, and a
second BXL with the same operand restores `B`. -/
def Obligations.BxlXorsItsLiteral : Prop :=
  ∀ (s : State) (opd : TapeCell),
    encode (.bxl opd) = [1, opd] ∧
    ∃ r : Word, exec (.bxl opd) s = .next { s with b := r, pc := s.pc + 2, steps := s.steps + 1 } ∧
      r.toNat = s.b.toNat ^^^ opd.toNat ∧
      (∀ k, 8 ≤ k → r.getLsbD k = s.b.getLsbD k) ∧ (r.toInt < 0 ↔ s.b.toInt < 0) ∧
      ∀ u, exec (.bxl opd) { s with b := r } = .next u → u.b = s.b

/-- R71: BST completes with `B = combo mod 8`, the remainder being non-negative for a negative register
too; or its operand is illegal and nothing is written. -/
def Obligations.BstTakesTheLowThreeBits : Prop :=
  ∀ (s : State) (opd : TapeCell),
    (∀ n, combo s opd = some n → ∃ r : Word, r.toInt = n.toInt % 8 ∧
      exec (.bst opd) s = .next { s with b := r, pc := s.pc + 2, steps := s.steps + 1 }) ∧
    (7 ≤ opd.toNat → exec (.bst opd) s =
      .next { s with runState := .faulted, cause := some (.invalidOperand opd) }) ∧
    encode (.bst opd) = [2, opd]

/-- R72: BXC completes for every operand cell, with the same result for all; the result is negative
exactly when one of `B`, `C` is and the other is not. -/
def Obligations.BxcXorsBAndC : Prop :=
  ∀ s : State, ∃ r : Word, r.toNat = s.b.toNat ^^^ s.c.toNat ∧
    (r.toInt < 0 ↔ ¬(s.b.toInt < 0 ↔ s.c.toInt < 0)) ∧
    ∀ opd : TapeCell, encode (.bxc opd) = [4, opd] ∧
      exec (.bxc opd) s = .next { s with b := r, pc := s.pc + 2, steps := s.steps + 1 }

/-! Control transfer. -/

/-- R75: JNZ completes for every operand cell: any non-zero `A`, a negative one included, sets `pc` to the
operand; `A = 0` falls through; nothing else changes but `STEPS`. -/
def Obligations.JnzJumpsUnlessAIsZero : Prop :=
  ∀ (s : State) (opd : TapeCell),
    encode (.jnz opd) = [3, opd] ∧
    (s.a.toInt ≠ 0 → ∃ target : U64, target.toNat = opd.toNat ∧
      exec (.jnz opd) s = .next { s with pc := target, steps := s.steps + 1 }) ∧
    (s.a.toInt = 0 → exec (.jnz opd) s = .next { s with pc := s.pc + 2, steps := s.steps + 1 })

/-- R76: what each kind of target of a taken jump does at the next step: a target at or past the end
halts, the last cell raises `OperandFetchPastEnd`, and any other target, even or odd, executes the pair
that stands there. That an odd target executes and that the last cell faults are the spec's own
decisions D7, D8. -/
def Obligations.JumpTargetsAtTheNextStep : Prop :=
  ∀ (s : State) (opd : TapeCell), s.runState = .running → s.steps ≠ s.stepBound →
    s.a.toInt ≠ 0 → s.memRead s.pc.toNat = some 3 → s.memRead (s.pc.toNat + 1) = some opd →
    ∃ u, step s = .next u ∧ u.pc.toNat = opd.toNat ∧
      (s.len ≤ opd.toNat → step u = .next { u with runState := .halted }) ∧
      (s.steps + 1 ≠ s.stepBound → opd.toNat + 1 = s.len → step u =
        .next { u with runState := .faulted, cause := some (.operandFetchPastEnd u.pc) }) ∧
      (s.steps + 1 ≠ s.stepBound → ∀ i, s.instrAt opd.toNat = some i → step u = exec i u)

/-- R16: how an executed instruction changes `pc`: a taken JNZ sets it to its literal, an instruction that
faults leaves it, every other adds 2. -/
def Obligations.PcAdvancesByTwoUnlessJumpTaken : Prop :=
  ∀ (i : Instr) (s t : State), s.runState = .running → exec i s = .next t →
    (t.runState = .faulted → t.pc = s.pc) ∧
    (t.runState ≠ .faulted →
      (∃ opd, i = .jnz opd ∧ s.a.toInt ≠ 0 ∧ t.pc.toNat = opd.toNat) ∨
      ((∀ opd, i = .jnz opd → s.a.toInt = 0) ∧ t.pc = s.pc + 2))

/-! Output. -/

/-- R80, R81: OUT completes, appending `combo mod 8` to the output, and changes no register; or its
operand is illegal and nothing is appended, and no register changes then either. -/
def Obligations.OutAppendsTheLowThreeBits : Prop :=
  ∀ (s : State) (opd : TapeCell),
    (∀ n, combo s opd = some n → ∃ v : OutElem, (v.toNat : Int) = n.toInt % 8 ∧
      exec (.out opd) s =
        .next { s with out := s.out ++ [v], pc := s.pc + 2, steps := s.steps + 1 }) ∧
    (7 ≤ opd.toNat → exec (.out opd) s =
      .next { s with runState := .faulted, cause := some (.invalidOperand opd) }) ∧
    (∀ t, exec (.out opd) s = .next t → t.a = s.a ∧ t.b = s.b ∧ t.c = s.c) ∧
    encode (.out opd) = [5, opd]

/-- R38: a step leaves the output as it was, or the instruction at `pc` is an OUT and exactly its element
is appended at the end. -/
def Obligations.OnlyOutAppendsAndOnlyAtTheEnd : Prop :=
  ∀ s t : State, step s = .next t →
    (t.out = s.out ∧ ∀ opd, s.instrAt s.pc.toNat = some (.out opd) → t.steps = s.steps) ∨
    ∃ opd n v, s.instrAt s.pc.toNat = some (.out opd) ∧ combo s opd = some n ∧
      (v.toNat : Int) = n.toInt % 8 ∧ t.out = s.out ++ [v]

/-- The output is never read: whatever stands before in the output stream, a step does the same and
leaves it standing (R25). -/
def Obligations.OutputIsNeverRead : Prop :=
  ∀ (s : State) (earlier : List OutElem),
    step { s with out := earlier ++ s.out } =
      mapNext (fun t => { t with out := earlier ++ t.out }) (step s)

/-! Frames. -/

/-- The frame of every instruction, completing or faulting (the table of R13): `A` is written by ADV only,
`B` by BXL, BST, BXC, BDV only, `C` by CDV only, the output by OUT only; no cell of the tape, no launch
constant changes; a status change is a fault, and then `STEPS` and `pc` do not change. -/
def Obligations.EveryInstructionKeepsItsFrame : Prop :=
  ∀ (i : Instr) (s t : State), exec i s = .next t →
    (i.opcode ≠ .adv → t.a = s.a) ∧
    (i.opcode ∉ [Opcode.bxl, .bst, .bxc, .bdv] → t.b = s.b) ∧
    (i.opcode ≠ .cdv → t.c = s.c) ∧
    (i.opcode ≠ .out → t.out = s.out) ∧
    (∀ k, t.memRead k = s.memRead k) ∧
    t.tape = s.tape ∧ t.len = s.len ∧ t.stepBound = s.stepBound ∧
    ((t.runState = s.runState ∧ t.cause = s.cause ∧ t.steps = s.steps + 1) ∨
      (t.runState = .faulted ∧ t.cause.isSome = true ∧ t.steps = s.steps ∧ t.pc = s.pc ∧
        t.a = s.a ∧ t.b = s.b ∧ t.c = s.c ∧ t.out = s.out))

/-- Through any number of steps the tape, `LEN` and `STEP_BOUND` are the launch's, and the output only
grows at its end. -/
def Obligations.RunsKeepTheLaunchConstants : Prop :=
  ∀ (k : Nat) (s : State),
    (runFor k s).tape = s.tape ∧ (runFor k s).len = s.len ∧
    (runFor k s).stepBound = s.stepBound ∧ s.out <+: (runFor k s).out ∧
    (runFor k s).out.length ≤ s.out.length + k

/-! The step. -/

/-- R33: with a running engine, budget left and both cells on the tape, the step reads the opcode cell at
`pc` and the operand cell at `pc + 1`, for every `pc`, even or odd, and is `exec` of the instruction they
decode to. Nothing is added around `exec`: the advance of `pc` and of `STEPS` is in the meanings. -/
def Obligations.StepRunsTheFetchedInstruction : Prop :=
  ∀ (s : State) (opc opd : TapeCell) (i : Instr) (rest : List TapeCell),
    s.runState = .running → s.steps ≠ s.stepBound →
    s.memRead s.pc.toNat = some opc → s.memRead (s.pc.toNat + 1) = some opd →
    decode (opc :: opd :: rest) = .ok (i, rest) → step s = exec i s

/-- A word of the opcode table placed for fetch is what the next step runs (the model's load, log 7). -/
def Obligations.LoadedWordRunsNext : Prop :=
  ∀ (s : State) (w : BitVec 16) (i : Instr), s.tape.wf → decodeTableWord 16 w.toNat = some i →
    step (s.withFetchWord 16 w.toNat) = exec i (s.withFetchWord 16 w.toNat)

/-- A step answers a next state exactly from a running engine: no tape, no register value and no count
makes a running engine stop without an end of the run. That the ended engine stops is log 3. -/
def Obligations.StepAnswersExactlyWhenRunning : Prop :=
  ∀ s : State, (s.runState = .running ↔ ∃ t, step s = .next t) ∧
    (s.runState = .halted → step s = .fault .runHalted) ∧
    (s.runState = .faulted → step s = .fault .runFaulted)

/-- R93: the normal halt: `pc >= LEN` at the start of a step sets `RUNSTATE` and nothing else, and no
other step ends a run in `Halted`. -/
def Obligations.HaltsExactlyPastTheEnd : Prop :=
  ∀ s : State, s.runState = .running →
    (s.len ≤ s.pc.toNat → step s = .next { s with runState := .halted }) ∧
    ∀ t, step s = .next t → t.runState = .halted → s.len ≤ s.pc.toNat

/-- R94: the order of the tests of a step, with the outcome of each (the order is the spec's own decision
D15): halt, budget, missing operand cell, opcode, Combo operand, register state, else the instruction
completes. -/
def Obligations.TestsOfAStepInOrder : Prop :=
  ∀ s : State, s.runState = .running →
    (s.len ≤ s.pc.toNat → step s = .next { s with runState := .halted }) ∧
    (s.pc.toNat < s.len → s.steps = s.stepBound → step s =
      .next { s with runState := .faulted, cause := some (.stepBoundExceeded s.pc) }) ∧
    (s.pc.toNat + 1 = s.len → s.steps ≠ s.stepBound → step s =
      .next { s with runState := .faulted, cause := some (.operandFetchPastEnd s.pc) }) ∧
    ∀ opc opd : TapeCell, s.steps ≠ s.stepBound →
      s.memRead s.pc.toNat = some opc → s.memRead (s.pc.toNat + 1) = some opd →
      (7 < opc.toNat → step s =
        .next { s with runState := .faulted, cause := some (.invalidOpcode opc) }) ∧
      ∀ i, decode [opc, opd] = .ok (i, []) →
        (i.opcode.mode = .combo → 6 < opd.toNat → step s =
          .next { s with runState := .faulted, cause := some (.invalidOperand opd) }) ∧
        (∀ n, i.opcode ∈ [Opcode.adv, .bdv, .cdv] → combo s opd = some n →
          s.a.toInt < 0 ∨ n.toInt < 0 → step s =
          .next { s with runState := .faulted, cause := some (.invalidRegisterState s.a n) }) ∧
        (i.operandLegal = true →
          (i.opcode ∈ [Opcode.adv, .bdv, .cdv] →
            0 ≤ s.a.toInt ∧ ∀ n, combo s opd = some n → 0 ≤ n.toInt) →
          ∃ t, step s = .next t ∧ t.runState = .running ∧ t.cause = s.cause ∧
            t.steps = s.steps + 1)

/-- R96, R97: a step that ends in `Faulted` changes `RUNSTATE` and `CAUSE` and nothing else (precise
faults are the spec's own decision D17, the state `Faulted` its decision D10). -/
def Obligations.FaultsArePrecise : Prop :=
  ∀ s t : State, step s = .next t → t.runState = .faulted →
    ∃ c, t = { s with runState := .faulted, cause := some c }

/-- A step reads no cell but the two at `pc` and `pc + 1`: with another tape that agrees there it does the
same (R32: cells that execution never reaches are never examined). -/
def Obligations.UnreachedCellsAreNeverExamined : Prop :=
  ∀ (s : State) (m : Memory), m.read s.pc.toNat = s.tape.read s.pc.toNat →
    m.read (s.pc.toNat + 1) = s.tape.read (s.pc.toNat + 1) →
    step { s with tape := m } = mapNext (fun t => { t with tape := m }) (step s)

/-! Invariants. -/

/-- Every step keeps the invariant of a run: canonical tape, the bounds of `pc`, `OUT` and `STEPS`, and
`CAUSE` and `RUNSTATE` in accord. -/
def Obligations.StepKeepsTheRunInvariant : Prop :=
  ∀ s t : State, s.Inv → step s = .next t → t.Inv

/-- Every launch within `LEN_MAX` meets it. -/
def Obligations.LaunchMeetsTheRunInvariant : Prop :=
  ∀ (cells : List TapeCell) (a0 b0 c0 : Word) (bound : U64),
    cells.length ≤ Config.lenMax → (launch cells a0 b0 c0 bound).Inv

/-- In a state of a run neither `pc` nor `STEPS` wraps (R18, R22: the widths are the spec's own decisions
D12, D13): the 64-bit sums are the sums of the numbers. -/
def Obligations.PcAndStepsNeverWrap : Prop :=
  ∀ s t : State, s.Inv → step s = .next t → t.runState = .running →
    t.steps.toNat = s.steps.toNat + 1 ∧
    (t.pc.toNat = s.pc.toNat + 2 ∨ ∃ opd, s.instrAt s.pc.toNat = some (.jnz opd) ∧
      t.pc.toNat = opd.toNat)

/-- Non-negative registers stay so, `A` never increases, and such a run never raises
`InvalidRegisterState` (R65, R66, R89; the fault itself is the spec's decision D4, D5). -/
def Obligations.NonNegativeRegistersStaySo : Prop :=
  ∀ s t : State, s.NonNegative → step s = .next t →
    t.NonNegative ∧ t.a.toInt ≤ s.a.toInt ∧
    ∀ x n, t.cause = some (.invalidRegisterState x n) → s.cause = some (.invalidRegisterState x n)

/-- In the run of a well-formed program `pc` stays even, the registers stay non-negative and no fault but
the used-up budget is raised (R17, R32, R113). -/
def Obligations.StepKeepsTheGoodRun : Prop :=
  ∀ s t : State, s.GoodRun → step s = .next t → t.GoodRun

/-- A launch of a well-formed tape with non-negative registers starts such a run. -/
def Obligations.WellFormedLaunchIsAGoodRun : Prop :=
  ∀ (cells : List TapeCell) (a0 b0 c0 : Word) (bound : U64),
    (launch cells a0 b0 c0 bound).wellFormedTape → 0 ≤ a0.toInt → 0 ≤ b0.toInt → 0 ≤ c0.toInt →
    (launch cells a0 b0 c0 bound).GoodRun

/-- Equal tapes are equal data: two canonical stored tapes that read alike at every index are one (the
model's representation, log 2). -/
def Obligations.CanonicalTapeIsUnique : Prop :=
  ∀ m m' : Memory, m.wf → m'.wf → (∀ i, m.read i = m'.read i) → m = m'

/-! Whole runs. -/

/-- The engine never hangs: from every state with budget left, after one call of `Step()` more than the
budget the run has ended; so every launch, of any tape and any registers, ends. -/
def Obligations.EveryRunEndsWithinItsBudget : Prop :=
  (∀ s : State, s.steps.toNat ≤ s.stepBound.toNat →
    (runFor (s.stepBound.toNat - s.steps.toNat + 1) s).runState ≠ .running) ∧
  ∀ (cells : List TapeCell) (a0 b0 c0 : Word) (bound : U64),
    (finalState (launch cells a0 b0 c0 bound)).runState ≠ .running

/-- The result of every launch: the whole output of a halted run, the cause of a faulted one, never
neither. -/
def Obligations.EveryLaunchHasItsResult : Prop :=
  ∀ (cells : List TapeCell) (a0 b0 c0 : Word) (bound : U64) (f : State),
    f = finalState (launch cells a0 b0 c0 bound) →
    (f.runState = .halted ∧ runResult cells a0 b0 c0 bound = some (.ok f.out)) ∨
    (f.runState = .faulted ∧ ∃ c, f.cause = some c ∧
      runResult cells a0 b0 c0 bound = some (.err c.name))

/-- A well-formed program launched with non-negative registers delivers its output or runs out of budget:
no other result is possible. -/
def Obligations.WellFormedLaunchEndsWellOrOutOfBudget : Prop :=
  ∀ (cells : List TapeCell) (a0 b0 c0 : Word) (bound : U64),
    (launch cells a0 b0 c0 bound).wellFormedTape → 0 ≤ a0.toInt → 0 ≤ b0.toInt → 0 ≤ c0.toInt →
    (∃ out, runResult cells a0 b0 c0 bound = some (.ok out)) ∨
    runResult cells a0 b0 c0 bound = some (.err .stepBoundExceeded)

/-- A run that halts halts in the same state, up to the bound itself, under every larger bound: the bound
acts on a run only by ending it. -/
def Obligations.LargerBoundGivesTheSameHalt : Prop :=
  ∀ (cells : List TapeCell) (a0 b0 c0 : Word) (bound bound' : U64),
    bound.toNat ≤ bound'.toNat →
    (finalState (launch cells a0 b0 c0 bound)).runState = .halted →
    finalState (launch cells a0 b0 c0 bound') =
      { finalState (launch cells a0 b0 c0 bound) with stepBound := bound' }
end

