-- ==== Sys2Proof/Laws/Decode.lean ====
section
/-! SUPPORT. The small laws of the opcode table, the decoder's two parts and the encoder. -/

namespace Sys2Proof

@[simp] theorem opcode_instr (op : Opcode) (v : TapeCell) : (op.instr v).opcode = op := by
  cases op <;> rfl

@[simp] theorem operand_instr (op : Opcode) (v : TapeCell) : (op.instr v).operand = v := by
  cases op <;> rfl

@[simp] theorem instr_opcode_operand (i : Instr) : i.opcode.instr i.operand = i := by
  cases i <;> rfl

/-- The table has one row per code (R48). -/
@[simp] theorem opcodeOf_code (op : Opcode) : opcodeOf op.code = op := by cases op <;> rfl

/-- Every code has a row: there is no reserved opcode below 8 (R52). -/
theorem code_opcodeOf (k : BitVec 3) : (opcodeOf k).code = k := by revert k; decide

/-- `opc_hi` is zero exactly when the cell is 0 to 7 (R46). -/
theorem opcHi_eq_zero_iff (opc : TapeCell) : opc.extractLsb' 3 5 = 0 ↔ opc.toNat ≤ 7 := by
  revert opc; decide

/-- What `decodePair` answers, said once. -/
theorem decodePair_cases (opc opd : TapeCell) :
    (opc.toNat ≤ 7 ∧ decodePair opc opd = .ok ((opcodeOf (opc.extractLsb' 0 3)).instr opd)) ∨
    (7 < opc.toNat ∧ decodePair opc opd = .error (.invalidOpcode opc)) := by
  by_cases h : opc.toNat ≤ 7
  · exact .inl ⟨h, if_pos ((opcHi_eq_zero_iff opc).2 h)⟩
  · exact .inr ⟨by omega, if_neg fun e => h ((opcHi_eq_zero_iff opc).1 e)⟩

/-- The decoded instruction has the operand cell as its operand. -/
theorem operand_of_decodePair {opc opd : TapeCell} {i : Instr} (h : decodePair opc opd = .ok i) :
    i.operand = opd := by
  rcases decodePair_cases opc opd with ⟨-, e⟩ | ⟨-, e⟩
  · rw [e] at h; cases h; simp
  · rw [e] at h; cases h

end Sys2Proof
end

