-- ==== Sys2Proof/Laws/Operands.lean ====
section
/-! SUPPORT. The laws of the operand resolver, of the register tests and of the arithmetic. -/

namespace Sys2Proof.Machine

theorem combo_congr {s t : State} (ha : t.a = s.a) (hb : t.b = s.b) (hc : t.c = s.c) (v : TapeCell) :
    combo t v = combo s v := by
  unfold combo State.getReg; rw [ha, hb, hc]

/-- A Combo operand has a value exactly when it is 0 to 6 (R50, R53). -/
theorem combo_isSome_iff (s : State) (v : TapeCell) : (combo s v).isSome = true ↔ v.toNat ≤ 6 := by
  unfold combo
  split <;> simp_all
  omega

theorem combo_eq_none_iff (s : State) (v : TapeCell) : combo s v = none ↔ 7 ≤ v.toNat := by
  have := combo_isSome_iff s v
  cases h : combo s v <;> simp [h] at this ⊢ <;> omega

/-- The value of a Combo operand: a constant 0 to 3 or a register (R50). -/
theorem combo_cases {s : State} {v : TapeCell} {n : Word} (h : combo s v = some n) :
    (n.toNat = v.toNat ∧ v.toNat ≤ 3) ∨ n = s.a ∨ n = s.b ∨ n = s.c := by
  unfold combo at h
  split at h <;> simp_all [State.getReg] <;> subst h <;> simp

/-- `withCombo`, said once: the value goes on, or the operand is illegal. -/
theorem withCombo_cases (v : TapeCell) (s : State) (k : Word → Host.Outcome State Fault Refusal) :
    (∃ n, combo s v = some n ∧ withCombo v s k = k n) ∨
    (7 ≤ v.toNat ∧ withCombo v s k = raise (.invalidOperand v) s) := by
  cases h : combo s v with
  | some n => exact .inl ⟨n, rfl, by simp [withCombo, h]⟩
  | none => exact .inr ⟨(combo_eq_none_iff s v).1 h, by simp [withCombo, h]⟩

theorem withCombo_of_some {v : TapeCell} {s : State} {n : Word} (h : combo s v = some n)
    (k : Word → Host.Outcome State Fault Refusal) : withCombo v s k = k n := by
  simp [withCombo, h]

theorem withCombo_of_illegal {v : TapeCell} {s : State} (h : 7 ≤ v.toNat)
    (k : Word → Host.Outcome State Fault Refusal) :
    withCombo v s k = raise (.invalidOperand v) s := by
  simp [withCombo, (combo_eq_none_iff s v).2 h]

/-- The sign bit is the sign (R11). -/
theorem isNegative_iff (v : Word) : isNegative v = true ↔ v.toInt < 0 := by
  rw [isNegative, BitVec.toInt_neg_iff, ← BitVec.msb_eq_getLsbD_last v, BitVec.msb_eq_decide]
  simp
  omega

theorem isNegative_eq_false_iff (v : Word) : isNegative v = false ↔ 0 ≤ v.toInt := by
  have := isNegative_iff v
  cases h : isNegative v <;> simp [h] at this ⊢ <;> omega

/-- A non-negative register value is its pattern read as a number. -/
theorem toInt_of_nonneg {v : Word} (h : 0 ≤ v.toInt) : v.toInt = v.toNat ∧ v.toNat < 2 ^ 63 := by
  rw [BitVec.toInt_eq_toNat_cond] at h ⊢
  have := v.isLt
  split at h <;> constructor <;> omega

/-- The test of JNZ is the test of the value against zero (R75). -/
theorem isNonZero_iff (v : Word) : isNonZero v = true ↔ v.toInt ≠ 0 := by
  rw [isNonZero, decide_eq_true_iff, ne_eq, ne_eq, ← BitVec.toInt_inj]
  rfl

/-- `shr` as a number, for every count (R65): the power is large enough to give 0 from 63 on. -/
theorem shr_toNat {a : Word} (h : a.toNat < 2 ^ 63) (n : Word) :
    (shr a n).toNat = a.toNat / 2 ^ n.toNat := by
  unfold shr
  split
  · rw [BitVec.toNat_ofNat, Nat.mod_eq_of_lt]
    exact Nat.lt_of_le_of_lt (Nat.div_le_self _ _) a.isLt
  · next hn =>
    have : 2 ^ 63 ≤ 2 ^ n.toNat := Nat.pow_le_pow_right (by omega) (by omega)
    rw [Nat.div_eq_of_lt (by omega)]; rfl

/-- `shr` never increases a non-negative value and never makes it negative (R65). -/
theorem shr_bounds {a : Word} (h : 0 ≤ a.toInt) (n : Word) :
    0 ≤ (shr a n).toInt ∧ (shr a n).toInt ≤ a.toInt := by
  obtain ⟨ha, hlt⟩ := toInt_of_nonneg h
  have hs := shr_toNat hlt n
  have hle : (shr a n).toNat ≤ a.toNat := hs ▸ Nat.div_le_self _ _
  have : (shr a n).toInt = (shr a n).toNat := by
    rw [BitVec.toInt_eq_toNat_cond]; split <;> omega
  omega

/-- The `AND 7` is the remainder by 8, for negative values too (R11). -/
theorem low3_toNat (v : Word) : (low3 v).toNat = v.toNat % 8 := by
  simp [low3]

end Sys2Proof.Machine
end

