-- ==== Sys2Proof/Laws/State.lean ====
section
/-! SUPPORT. One lemma per field per update of the state, and the laws of the register file (R12). -/

namespace Sys2Proof.Machine.State

variable (s : State)

/-! `OutAppend` (R38). -/

@[simp] theorem outAppend_a (v : OutElem) : (s.outAppend v).a = s.a := rfl
@[simp] theorem outAppend_b (v : OutElem) : (s.outAppend v).b = s.b := rfl
@[simp] theorem outAppend_c (v : OutElem) : (s.outAppend v).c = s.c := rfl
@[simp] theorem outAppend_pc (v : OutElem) : (s.outAppend v).pc = s.pc := rfl
@[simp] theorem outAppend_out (v : OutElem) : (s.outAppend v).out = s.out ++ [v] := rfl
@[simp] theorem outAppend_runState (v : OutElem) : (s.outAppend v).runState = s.runState := rfl
@[simp] theorem outAppend_cause (v : OutElem) : (s.outAppend v).cause = s.cause := rfl
@[simp] theorem outAppend_steps (v : OutElem) : (s.outAppend v).steps = s.steps := rfl
@[simp] theorem outAppend_tape (v : OutElem) : (s.outAppend v).tape = s.tape := rfl
@[simp] theorem outAppend_len (v : OutElem) : (s.outAppend v).len = s.len := rfl
@[simp] theorem outAppend_stepBound (v : OutElem) : (s.outAppend v).stepBound = s.stepBound := rfl

/-! `pc <- pc + 2` (R16). -/

@[simp] theorem advance_a : (s.advance).a = s.a := rfl
@[simp] theorem advance_b : (s.advance).b = s.b := rfl
@[simp] theorem advance_c : (s.advance).c = s.c := rfl
@[simp] theorem advance_pc : (s.advance).pc = s.pc + 2 := rfl
@[simp] theorem advance_out : (s.advance).out = s.out := rfl
@[simp] theorem advance_runState : (s.advance).runState = s.runState := rfl
@[simp] theorem advance_cause : (s.advance).cause = s.cause := rfl
@[simp] theorem advance_steps : (s.advance).steps = s.steps := rfl
@[simp] theorem advance_tape : (s.advance).tape = s.tape := rfl
@[simp] theorem advance_len : (s.advance).len = s.len := rfl
@[simp] theorem advance_stepBound : (s.advance).stepBound = s.stepBound := rfl

/-! `pc <- target` (R75). -/

@[simp] theorem jumpTo_a (t : U64) : (s.jumpTo t).a = s.a := rfl
@[simp] theorem jumpTo_b (t : U64) : (s.jumpTo t).b = s.b := rfl
@[simp] theorem jumpTo_c (t : U64) : (s.jumpTo t).c = s.c := rfl
@[simp] theorem jumpTo_pc (t : U64) : (s.jumpTo t).pc = t := rfl
@[simp] theorem jumpTo_out (t : U64) : (s.jumpTo t).out = s.out := rfl
@[simp] theorem jumpTo_runState (t : U64) : (s.jumpTo t).runState = s.runState := rfl
@[simp] theorem jumpTo_cause (t : U64) : (s.jumpTo t).cause = s.cause := rfl
@[simp] theorem jumpTo_steps (t : U64) : (s.jumpTo t).steps = s.steps := rfl
@[simp] theorem jumpTo_tape (t : U64) : (s.jumpTo t).tape = s.tape := rfl
@[simp] theorem jumpTo_len (t : U64) : (s.jumpTo t).len = s.len := rfl
@[simp] theorem jumpTo_stepBound (t : U64) : (s.jumpTo t).stepBound = s.stepBound := rfl

/-! `STEPS <- STEPS + 1` (R22). -/

@[simp] theorem retire_a : (s.retire).a = s.a := rfl
@[simp] theorem retire_b : (s.retire).b = s.b := rfl
@[simp] theorem retire_c : (s.retire).c = s.c := rfl
@[simp] theorem retire_pc : (s.retire).pc = s.pc := rfl
@[simp] theorem retire_out : (s.retire).out = s.out := rfl
@[simp] theorem retire_runState : (s.retire).runState = s.runState := rfl
@[simp] theorem retire_cause : (s.retire).cause = s.cause := rfl
@[simp] theorem retire_steps : (s.retire).steps = s.steps + 1 := rfl
@[simp] theorem retire_tape : (s.retire).tape = s.tape := rfl
@[simp] theorem retire_len : (s.retire).len = s.len := rfl
@[simp] theorem retire_stepBound : (s.retire).stepBound = s.stepBound := rfl

/-! the normal halt (R93). -/

@[simp] theorem halt_a : (s.halt).a = s.a := rfl
@[simp] theorem halt_b : (s.halt).b = s.b := rfl
@[simp] theorem halt_c : (s.halt).c = s.c := rfl
@[simp] theorem halt_pc : (s.halt).pc = s.pc := rfl
@[simp] theorem halt_out : (s.halt).out = s.out := rfl
@[simp] theorem halt_runState : (s.halt).runState = .halted := rfl
@[simp] theorem halt_cause : (s.halt).cause = s.cause := rfl
@[simp] theorem halt_steps : (s.halt).steps = s.steps := rfl
@[simp] theorem halt_tape : (s.halt).tape = s.tape := rfl
@[simp] theorem halt_len : (s.halt).len = s.len := rfl
@[simp] theorem halt_stepBound : (s.halt).stepBound = s.stepBound := rfl

/-! a fault (R96). -/

@[simp] theorem enterFault_a (k : Cause) : (s.enterFault k).a = s.a := rfl
@[simp] theorem enterFault_b (k : Cause) : (s.enterFault k).b = s.b := rfl
@[simp] theorem enterFault_c (k : Cause) : (s.enterFault k).c = s.c := rfl
@[simp] theorem enterFault_pc (k : Cause) : (s.enterFault k).pc = s.pc := rfl
@[simp] theorem enterFault_out (k : Cause) : (s.enterFault k).out = s.out := rfl
@[simp] theorem enterFault_runState (k : Cause) : (s.enterFault k).runState = .faulted := rfl
@[simp] theorem enterFault_cause (k : Cause) : (s.enterFault k).cause = some k := rfl
@[simp] theorem enterFault_steps (k : Cause) : (s.enterFault k).steps = s.steps := rfl
@[simp] theorem enterFault_tape (k : Cause) : (s.enterFault k).tape = s.tape := rfl
@[simp] theorem enterFault_len (k : Cause) : (s.enterFault k).len = s.len := rfl
@[simp] theorem enterFault_stepBound (k : Cause) : (s.enterFault k).stepBound = s.stepBound := rfl

/-! A register write (R12): one register, nothing else. -/

@[simp] theorem setReg_a_a (v : Word) : (s.setReg .a v).a = v := rfl
@[simp] theorem setReg_a_b (v : Word) : (s.setReg .a v).b = s.b := rfl
@[simp] theorem setReg_a_c (v : Word) : (s.setReg .a v).c = s.c := rfl
@[simp] theorem setReg_b_a (v : Word) : (s.setReg .b v).a = s.a := rfl
@[simp] theorem setReg_b_b (v : Word) : (s.setReg .b v).b = v := rfl
@[simp] theorem setReg_b_c (v : Word) : (s.setReg .b v).c = s.c := rfl
@[simp] theorem setReg_c_a (v : Word) : (s.setReg .c v).a = s.a := rfl
@[simp] theorem setReg_c_b (v : Word) : (s.setReg .c v).b = s.b := rfl
@[simp] theorem setReg_c_c (v : Word) : (s.setReg .c v).c = v := rfl
@[simp] theorem setReg_pc (r : Reg) (v : Word) : (s.setReg r v).pc = s.pc := by
  cases r <;> rfl
@[simp] theorem setReg_out (r : Reg) (v : Word) : (s.setReg r v).out = s.out := by
  cases r <;> rfl
@[simp] theorem setReg_runState (r : Reg) (v : Word) : (s.setReg r v).runState = s.runState := by
  cases r <;> rfl
@[simp] theorem setReg_cause (r : Reg) (v : Word) : (s.setReg r v).cause = s.cause := by
  cases r <;> rfl
@[simp] theorem setReg_steps (r : Reg) (v : Word) : (s.setReg r v).steps = s.steps := by
  cases r <;> rfl
@[simp] theorem setReg_tape (r : Reg) (v : Word) : (s.setReg r v).tape = s.tape := by
  cases r <;> rfl
@[simp] theorem setReg_len (r : Reg) (v : Word) : (s.setReg r v).len = s.len := by
  cases r <;> rfl
@[simp] theorem setReg_stepBound (r : Reg) (v : Word) : (s.setReg r v).stepBound = s.stepBound := by
  cases r <;> rfl

@[simp] theorem getReg_a : s.getReg .a = s.a := rfl
@[simp] theorem getReg_b : s.getReg .b = s.b := rfl
@[simp] theorem getReg_c : s.getReg .c = s.c := rfl

/-- A read gives the value of the last write to that register; the other two keep theirs (R12). -/
theorem getReg_setReg (r q : Reg) (v : Word) :
    (s.setReg r v).getReg q = if q = r then v else s.getReg q := by
  cases r <;> cases q <;> rfl

/-! Reading the tape depends on the stored cells and `LEN` only. -/

@[simp] theorem outAppend_memRead (v : OutElem) (i : Nat) : (s.outAppend v).memRead i = s.memRead i := rfl
@[simp] theorem advance_memRead (i : Nat) : (s.advance).memRead i = s.memRead i := rfl
@[simp] theorem jumpTo_memRead (t : U64) (i : Nat) : (s.jumpTo t).memRead i = s.memRead i := rfl
@[simp] theorem retire_memRead (i : Nat) : (s.retire).memRead i = s.memRead i := rfl
@[simp] theorem halt_memRead (i : Nat) : (s.halt).memRead i = s.memRead i := rfl
@[simp] theorem enterFault_memRead (k : Cause) (i : Nat) : (s.enterFault k).memRead i = s.memRead i := rfl
@[simp] theorem setReg_memRead (r : Reg) (v : Word) (i : Nat) : (s.setReg r v).memRead i = s.memRead i := by
  cases r <;> rfl

end Sys2Proof.Machine.State
end

