-- ==== Sys2Proof/Laws/Exec.lean ====
section
/-! SUPPORT. What each meaning can do, said once: provers cite these and do not unfold the meanings. -/

namespace Sys2Proof.Machine

/-- The common body of ADV, BDV, CDV: it divides, or one of its two faults is raised. -/
theorem divide_cases (d : Reg) (opd : TapeCell) (s : State) :
    (∃ n, combo s opd = some n ∧ 0 ≤ s.a.toInt ∧ 0 ≤ n.toInt ∧
      divide d opd s = .next (s.setReg d (shr s.a n)).advance.retire) ∨
    (7 ≤ opd.toNat ∧ divide d opd s = .next (s.enterFault (.invalidOperand opd))) ∨
    (∃ n, combo s opd = some n ∧ (s.a.toInt < 0 ∨ n.toInt < 0) ∧
      divide d opd s = .next (s.enterFault (.invalidRegisterState s.a n))) := by
  unfold divide
  rcases withCombo_cases opd s _ with ⟨n, hn, e⟩ | ⟨h, e⟩
  · rw [e]
    by_cases h : isNegative s.a || isNegative n
    · refine .inr (.inr ⟨n, hn, ?_, by simp [h, raise]⟩)
      simpa [isNegative_iff] using h
    · have h' := h
      simp only [Bool.or_eq_true, not_or, Bool.not_eq_true, isNegative_eq_false_iff] at h'
      exact .inl ⟨n, hn, h'.1, h'.2, by simp [h, complete]⟩
  · exact .inr (.inl ⟨h, e⟩)

theorem execAdv_eq (opd : TapeCell) (s : State) : execAdv opd s = divide .a opd s := rfl
theorem execBdv_eq (opd : TapeCell) (s : State) : execBdv opd s = divide .b opd s := rfl
theorem execCdv_eq (opd : TapeCell) (s : State) : execCdv opd s = divide .c opd s := rfl

/-- BXL always completes. -/
theorem execBxl_eq (opd : TapeCell) (s : State) :
    execBxl opd s = .next (s.setReg .b (s.b ^^^ literal opd)).advance.retire := rfl

/-- BXC always completes, whatever its operand. -/
theorem execBxc_eq (opd : TapeCell) (s : State) :
    execBxc opd s = .next (s.setReg .b (s.b ^^^ s.c)).advance.retire := rfl

/-- BST writes `B`, or its operand is illegal. -/
theorem execBst_cases (opd : TapeCell) (s : State) :
    (∃ n, combo s opd = some n ∧
      execBst opd s = .next (s.setReg .b ((low3 n).setWidth 64)).advance.retire) ∨
    (7 ≤ opd.toNat ∧ execBst opd s = .next (s.enterFault (.invalidOperand opd))) :=
  withCombo_cases opd s _

/-- OUT appends one element, or its operand is illegal. -/
theorem execOut_cases (opd : TapeCell) (s : State) :
    (∃ n, combo s opd = some n ∧ execOut opd s = .next (s.outAppend (low3 n)).advance.retire) ∨
    (7 ≤ opd.toNat ∧ execOut opd s = .next (s.enterFault (.invalidOperand opd))) :=
  withCombo_cases opd s _

/-- JNZ always completes: it jumps or falls through. -/
theorem execJnz_cases (opd : TapeCell) (s : State) :
    (s.a.toInt ≠ 0 ∧ execJnz opd s = .next (s.jumpTo (literal opd)).retire) ∨
    (s.a.toInt = 0 ∧ execJnz opd s = .next s.advance.retire) := by
  by_cases h : isNonZero s.a
  · exact .inl ⟨(isNonZero_iff _).1 h, by simp [execJnz, h, completeAt]⟩
  · refine .inr ⟨?_, by simp [execJnz, h, complete]⟩
    by_contra e
    exact h ((isNonZero_iff _).2 e)

/-- How one instruction changes the state: it completes, with one write to a register or to the output
or none, or it raises a fault of its own and writes nothing. -/
inductive Effect (i : Instr) (s : State) : State → Prop where
  /-- ADV, BDV, CDV, BXL, BST, BXC complete: one register is written. -/
  | writes (d : Reg) (v : Word) (dest : (d = .a → ∃ opd n, i = .adv opd ∧ v = shr s.a n ∧ 0 ≤ s.a.toInt) ∧
      (d = .b → (∃ opd, i = .bxl opd ∧ v = s.b ^^^ literal opd) ∨ (∃ opd, i = .bxc opd ∧ v = s.b ^^^ s.c) ∨
        (∃ opd n, i = .bst opd ∧ v = (low3 n).setWidth 64) ∨
        ∃ opd n, i = .bdv opd ∧ v = shr s.a n ∧ 0 ≤ s.a.toInt) ∧
      (d = .c → ∃ opd n, i = .cdv opd ∧ v = shr s.a n ∧ 0 ≤ s.a.toInt)) :
      Effect i s (s.setReg d v).advance.retire
  /-- OUT completes. -/
  | appends (opd : TapeCell) (n : Word) (h : i = .out opd) (hn : combo s opd = some n) :
      Effect i s (s.outAppend (low3 n)).advance.retire
  /-- JNZ, taken. -/
  | jumps (opd : TapeCell) (h : i = .jnz opd) (ha : s.a.toInt ≠ 0) :
      Effect i s (s.jumpTo (literal opd)).retire
  /-- JNZ, not taken. -/
  | fallsThrough (opd : TapeCell) (h : i = .jnz opd) (ha : s.a.toInt = 0) :
      Effect i s s.advance.retire
  /-- A Combo-mode instruction with an illegal operand. -/
  | badOperand (h : i.opcode.mode = .combo) (hv : 7 ≤ i.operand.toNat) :
      Effect i s (s.enterFault (.invalidOperand i.operand))
  /-- A shift of a negative value or by a negative count. -/
  | badRegister (n : Word) (hi : i.opcode = .adv ∨ i.opcode = .bdv ∨ i.opcode = .cdv)
      (hn : combo s i.operand = some n) (h : s.a.toInt < 0 ∨ n.toInt < 0) :
      Effect i s (s.enterFault (.invalidRegisterState s.a n))

/-- `exec` always answers a next state, and it is an effect of the instruction. -/
theorem exec_effect (i : Instr) (s : State) : ∃ t, exec i s = .next t ∧ Effect i s t := by
  cases i with
  | adv opd =>
    rcases divide_cases .a opd s with ⟨n, -, ha, -, e⟩ | ⟨h, e⟩ | ⟨n, hn, h, e⟩
    · exact ⟨_, e, .writes .a _ ⟨fun _ => ⟨opd, n, rfl, rfl, ha⟩, nofun, nofun⟩⟩
    · exact ⟨_, e, .badOperand (i := .adv opd) rfl h⟩
    · exact ⟨_, e, .badRegister n (.inl rfl) hn h⟩
  | bdv opd =>
    rcases divide_cases .b opd s with ⟨n, -, ha, -, e⟩ | ⟨h, e⟩ | ⟨n, hn, h, e⟩
    · exact ⟨_, e, .writes .b _ ⟨nofun, fun _ => .inr (.inr (.inr ⟨opd, n, rfl, rfl, ha⟩)), nofun⟩⟩
    · exact ⟨_, e, .badOperand (i := .bdv opd) rfl h⟩
    · exact ⟨_, e, .badRegister n (.inr (.inl rfl)) hn h⟩
  | cdv opd =>
    rcases divide_cases .c opd s with ⟨n, -, ha, -, e⟩ | ⟨h, e⟩ | ⟨n, hn, h, e⟩
    · exact ⟨_, e, .writes .c _ ⟨nofun, nofun, fun _ => ⟨opd, n, rfl, rfl, ha⟩⟩⟩
    · exact ⟨_, e, .badOperand (i := .cdv opd) rfl h⟩
    · exact ⟨_, e, .badRegister n (.inr (.inr rfl)) hn h⟩
  | bxl opd =>
    exact ⟨_, execBxl_eq opd s, .writes .b _ ⟨nofun, fun _ => .inl ⟨opd, rfl, rfl⟩, nofun⟩⟩
  | bxc opd =>
    exact ⟨_, execBxc_eq opd s, .writes .b _ ⟨nofun, fun _ => .inr (.inl ⟨opd, rfl, rfl⟩), nofun⟩⟩
  | bst opd =>
    rcases execBst_cases opd s with ⟨n, -, e⟩ | ⟨h, e⟩
    · exact ⟨_, e, .writes .b _ ⟨nofun, fun _ => .inr (.inr (.inl ⟨opd, n, rfl, rfl⟩)), nofun⟩⟩
    · exact ⟨_, e, .badOperand (i := .bst opd) rfl h⟩
  | out opd =>
    rcases execOut_cases opd s with ⟨n, hn, e⟩ | ⟨h, e⟩
    · exact ⟨_, e, .appends opd n rfl hn⟩
    · exact ⟨_, e, .badOperand (i := .out opd) rfl h⟩
  | jnz opd =>
    rcases execJnz_cases opd s with ⟨ha, e⟩ | ⟨ha, e⟩
    · exact ⟨_, e, .jumps opd rfl ha⟩
    · exact ⟨_, e, .fallsThrough opd rfl ha⟩

/-- Inversion of `exec`. -/
theorem effect_of_exec {i : Instr} {s t : State} (h : exec i s = .next t) : Effect i s t := by
  obtain ⟨u, e, he⟩ := exec_effect i s
  rw [e] at h; cases h; exact he

end Sys2Proof.Machine
end

