-- ==== Sys2Proof/Laws/Memory.lean ====
section
/-! SUPPORT. The laws of the stored tape: read after write, and that every operation keeps the canonical
form. -/

namespace Sys2Proof.Machine.Memory

/-- An index below every stored one reads as the unlisted cell. -/
theorem read_of_lt {m : Memory} {i : Nat} (h : ∀ x ∈ m, i < x.1) : m.read i = Config.unlistedCell := by
  induction m with
  | nil => rfl
  | cons x m ih =>
    have hx := h x (by simp)
    have : i ≠ x.1 := by omega
    simp only [read, this, if_false]
    exact ih fun y hy => h y (by simp [hy])

/-- A read after a write: the written cell at its index, every other cell as before. -/
theorem read_write {m : Memory} (hm : m.wf) (i j : Nat) (v : TapeCell) :
    (m.write i v).read j = if j = i then v else m.read j := by
  induction m with
  | nil =>
    by_cases hv : v = Config.unlistedCell <;> simp [write, read, hv]
  | cons x m ih =>
    obtain ⟨k, w⟩ := x
    obtain ⟨hp, hne⟩ := hm
    rw [List.pairwise_cons] at hp
    have ih := ih ⟨hp.2, fun x hx => hne x (by simp [hx])⟩
    have above : ∀ n, n ≤ k → n < k ∨ n = k → ∀ x ∈ m, n < x.1 := fun n hn _ x hx => by
      have := hp.1 x hx; omega
    rcases Nat.lt_trichotomy i k with h | h | h
    · by_cases hv : v = Config.unlistedCell
      · simp only [write, if_pos h, if_pos hv]
        split
        · next hji =>
          have : j ≠ k := by omega
          simp only [read, this, if_false, hv]
          exact read_of_lt (above j (by omega) (by omega))
        · rfl
      · simp [write, h, hv, read]
    · subst h
      by_cases hv : v = Config.unlistedCell
      · simp only [write, Nat.lt_irrefl, if_false, if_true, hv]
        split
        · next hji => subst hji; exact read_of_lt (above _ (by omega) (by omega))
        · next hji => simp [read, hji]
      · by_cases hj : j = i <;> simp [write, hv, read, hj]
    · have h1 : ¬ i < k := by omega
      have h2 : i ≠ k := by omega
      simp only [write, h1, h2, if_false, read, ih]
      by_cases hjk : j = k
      · have : j ≠ i := by omega
        simp [hjk, h2.symm]
      · simp [hjk]

/-- A write adds no index but its own. -/
theorem mem_write {m : Memory} {i : Nat} {v : TapeCell} {x : Host.Cell} (h : x ∈ m.write i v) :
    x ∈ m ∨ (x = (i, v) ∧ v ≠ Config.unlistedCell) := by
  induction m with
  | nil =>
    by_cases hv : v = Config.unlistedCell <;> simp_all [write]
  | cons y m ih =>
    obtain ⟨k, w⟩ := y
    simp only [write] at h
    split at h
    · split at h
      · exact .inl h
      · next hv =>
        rcases List.mem_cons.1 h with h | h
        · exact .inr ⟨h, hv⟩
        · exact .inl h
    · split at h
      · split at h
        · exact .inl (List.mem_cons_of_mem _ h)
        · next hv =>
          rcases List.mem_cons.1 h with h | h
          · exact .inr ⟨h, hv⟩
          · exact .inl (List.mem_cons_of_mem _ h)
      · rcases List.mem_cons.1 h with h | h
        · exact .inl (by simp [h])
        · rcases ih h with h | h
          · exact .inl (List.mem_cons_of_mem _ h)
          · exact .inr h

/-- A write keeps the canonical form. -/
theorem wf_write {m : Memory} (hm : m.wf) (i : Nat) (v : TapeCell) : (m.write i v).wf := by
  refine ⟨?_, fun x hx => ?_⟩
  · induction m with
    | nil => by_cases hv : v = Config.unlistedCell <;> simp [write, hv]
    | cons y m ih =>
      obtain ⟨k, w⟩ := y
      obtain ⟨hp, hne⟩ := hm
      have hp' := List.pairwise_cons.1 hp
      have ih := ih ⟨hp'.2, fun x hx => hne x (by simp [hx])⟩
      simp only [write]
      split
      · next h =>
        split
        · exact hp
        · refine List.pairwise_cons.2 ⟨fun x hx => ?_, hp⟩
          rcases List.mem_cons.1 hx with hx | hx
          · simpa [hx] using h
          · have := hp'.1 x hx; simp only at this ⊢; omega
      · split
        · next h =>
          split
          · exact hp'.2
          · subst h; exact List.pairwise_cons.2 ⟨hp'.1, hp'.2⟩
        · refine List.pairwise_cons.2 ⟨fun x hx => ?_, ih⟩
          rcases mem_write hx with hx | ⟨hx, -⟩
          · exact hp'.1 x hx
          · simp only [hx]; omega
  · rcases mem_write hx with hx | ⟨hx, hv⟩
    · exact hm.2 x hx
    · simpa [hx] using hv

/-- The entries of a listing: each at the index of its cell, within the listing. -/
theorem mem_ofCellsFrom {cs : List TapeCell} {i : Nat} {x : Host.Cell} (h : x ∈ ofCellsFrom i cs) :
    i ≤ x.1 ∧ x.1 < i + cs.length ∧ x.2 ≠ Config.unlistedCell := by
  induction cs generalizing i with
  | nil => simp [ofCellsFrom] at h
  | cons v cs ih =>
    simp only [ofCellsFrom] at h
    simp only [List.length_cons]
    split at h
    · obtain ⟨h1, h2, h3⟩ := ih h
      exact ⟨by omega, by omega, h3⟩
    · next hv =>
      rcases List.mem_cons.1 h with h | h
      · subst h; exact ⟨Nat.le_refl _, by omega, hv⟩
      · obtain ⟨h1, h2, h3⟩ := ih h
        exact ⟨by omega, by omega, h3⟩

/-- The tape a launch stores is canonical. -/
theorem wf_ofCellsFrom (i : Nat) (cs : List TapeCell) : (ofCellsFrom i cs).wf := by
  refine ⟨?_, fun x hx => (mem_ofCellsFrom hx).2.2⟩
  induction cs generalizing i with
  | nil => simp [ofCellsFrom]
  | cons v cs ih =>
    simp only [ofCellsFrom]
    split
    · exact ih (i + 1)
    · exact List.pairwise_cons.2 ⟨fun x hx => by have := (mem_ofCellsFrom hx).1; simp only; omega,
        ih (i + 1)⟩

/-- The stored tape of a listing reads, cell for cell, as the listing. -/
theorem read_ofCellsFrom (i j : Nat) (cs : List TapeCell) (h : j < cs.length) :
    (ofCellsFrom i cs).read (i + j) = cs[j] := by
  induction cs generalizing i j with
  | nil => simp at h
  | cons v cs ih =>
    cases j with
    | zero =>
      simp only [ofCellsFrom]
      split
      · next hv =>
        rw [read_of_lt fun x hx => by have := (mem_ofCellsFrom hx).1; omega]
        simp [hv]
      · simp [read]
    | succ j =>
      have e : i + (j + 1) = i + 1 + j := by omega
      have hj : j < cs.length := by simpa using h
      simp only [ofCellsFrom, List.getElem_cons_succ, e]
      split
      · exact ih (i + 1) j hj
      · have : i + 1 + j ≠ i := by omega
        simp only [read, this, if_false]
        exact ih (i + 1) j hj

/-- The empty tape of `State.reset` is canonical. -/
theorem wf_nil : Memory.wf [] := ⟨List.Pairwise.nil, by simp⟩

end Sys2Proof.Machine.Memory
end

