-- ==== Sys2Proof/Laws/PerInstr.lean ====
section
/-! SUPPORT. What holds of every instruction as syntax, one lemma per constructor. -/

namespace Sys2Proof.Laws.Format

/-- Format `P` (R45, R46): two cells, the first of them 0 to 7, the second the operand as it stands; and
a well-formed instruction is one whose Combo operand has a value. -/
def Statement (i : Instr) : Prop :=
  (∃ opc : TapeCell, encode i = [opc, i.operand] ∧ opc.toNat ≤ 7) ∧
    (i.wellFormed = true → i.opcode.mode = .combo → i.operand.toNat ≤ 6)

theorem adv (v : TapeCell) : Statement (.adv v) :=
  ⟨⟨0, rfl, by decide⟩, fun h _ => by simp_all [Instr.wellFormed, Instr.operandLegal, Instr.operand]⟩

theorem bxl (v : TapeCell) : Statement (.bxl v) :=
  ⟨⟨1, rfl, by decide⟩, fun _ h => by simp [Instr.opcode, Opcode.mode] at h⟩

theorem bst (v : TapeCell) : Statement (.bst v) :=
  ⟨⟨2, rfl, by decide⟩, fun h _ => by simp_all [Instr.wellFormed, Instr.operandLegal, Instr.operand]⟩

theorem jnz (v : TapeCell) : Statement (.jnz v) :=
  ⟨⟨3, rfl, by decide⟩, fun _ h => by simp [Instr.opcode, Opcode.mode] at h⟩

theorem bxc (v : TapeCell) : Statement (.bxc v) :=
  ⟨⟨4, rfl, by decide⟩, fun _ h => by simp [Instr.opcode, Opcode.mode] at h⟩

theorem out (v : TapeCell) : Statement (.out v) :=
  ⟨⟨5, rfl, by decide⟩, fun h _ => by simp_all [Instr.wellFormed, Instr.operandLegal, Instr.operand]⟩

theorem bdv (v : TapeCell) : Statement (.bdv v) :=
  ⟨⟨6, rfl, by decide⟩, fun h _ => by simp_all [Instr.wellFormed, Instr.operandLegal, Instr.operand]⟩

theorem cdv (v : TapeCell) : Statement (.cdv v) :=
  ⟨⟨7, rfl, by decide⟩, fun h _ => by simp_all [Instr.wellFormed, Instr.operandLegal, Instr.operand]⟩

end Sys2Proof.Laws.Format
end

