-- ==== Sys2Proof/Laws/Step.lean ====
section
/-! SUPPORT. What a fetch and a step can do, said once. -/

namespace Sys2Proof.Machine

/-- The fetch answers the two cells at `pc` and `pc + 1`, or one of them does not exist. -/
theorem fetchPair_cases (s : State) :
    (s.pc.toNat + 1 < s.len ∧
      s.fetchPair = some (s.tape.read s.pc.toNat, s.tape.read (s.pc.toNat + 1))) ∨
    (s.len ≤ s.pc.toNat + 1 ∧ s.fetchPair = none) := by
  by_cases h : s.pc.toNat + 1 < s.len
  · have h0 : s.pc.toNat < s.len := by omega
    exact .inl ⟨h, by simp [State.fetchPair, State.memRead, h, h0]⟩
  · refine .inr ⟨by omega, ?_⟩
    by_cases h0 : s.pc.toNat < s.len <;> simp [State.fetchPair, State.memRead, h]

/-- What one step of a running engine does, in the order of its tests (R94). -/
inductive Transition (s : State) : State → Prop where
  | halts (h : s.len ≤ s.pc.toNat) : Transition s s.halt
  | outOfBudget (h : s.pc.toNat < s.len) (hb : s.steps = s.stepBound) :
      Transition s (s.enterFault (.stepBoundExceeded s.pc))
  | pastEnd (h : s.pc.toNat + 1 = s.len) (hb : s.steps ≠ s.stepBound) :
      Transition s (s.enterFault (.operandFetchPastEnd s.pc))
  | badOpcode (h : s.pc.toNat + 1 < s.len) (hb : s.steps ≠ s.stepBound)
      (ho : 7 < (s.tape.read s.pc.toNat).toNat) :
      Transition s (s.enterFault (.invalidOpcode (s.tape.read s.pc.toNat)))
  | executes (h : s.pc.toNat + 1 < s.len) (hb : s.steps ≠ s.stepBound) (i : Instr) (t : State)
      (hd : decodePair (s.tape.read s.pc.toNat) (s.tape.read (s.pc.toNat + 1)) = .ok i)
      (ht : exec i s = .next t) (he : Effect i s t) : Transition s t

theorem cycle_transition (s : State) : ∃ t, cycle s = .next t ∧ Transition s t := by
  unfold cycle
  split
  · next h => exact ⟨_, rfl, .halts h⟩
  · next h =>
    split
    · next hb => exact ⟨_, rfl, .outOfBudget (by omega) hb⟩
    · next hb =>
      rcases fetchPair_cases s with ⟨hl, e⟩ | ⟨hl, e⟩
      · simp only [fetchAndExecute, e]
        rcases decodePair_cases (s.tape.read s.pc.toNat) (s.tape.read (s.pc.toNat + 1)) with
          ⟨-, d⟩ | ⟨ho, d⟩
        · obtain ⟨t, ht, he⟩ := exec_effect _ s
          simp only [d]
          exact ⟨t, ht, .executes hl hb _ t d ht he⟩
        · simp only [d]
          exact ⟨_, rfl, .badOpcode hl hb ho⟩
      · simp only [fetchAndExecute, e]
        exact ⟨_, rfl, .pastEnd (by omega) hb⟩

/-- Inversion of `step`: it answers a next state from a running engine only. -/
theorem transition_of_step {s t : State} (h : step s = .next t) :
    s.runState = .running ∧ Transition s t := by
  unfold step at h
  split at h
  · next hr =>
    obtain ⟨u, e, ht⟩ := cycle_transition s
    rw [e] at h; cases h; exact ⟨hr, ht⟩
  · cases h
  · cases h

/-- A step of a running engine is the cycle. -/
theorem step_of_running {s : State} (h : s.runState = .running) : step s = cycle s := by
  simp [step, h]

/-- A tape read after `loadPair`. -/
theorem read_loadPair {s : State} (h : s.tape.wf) (opc opd : TapeCell) (i : Nat) :
    (s.loadPair opc opd).tape.read i =
      if i = s.pc.toNat + 1 then opd else if i = s.pc.toNat then opc else s.tape.read i := by
  simp only [State.loadPair]
  rw [Memory.read_write (Memory.wf_write h _ _), Memory.read_write h]

/-- Placing a pair keeps the stored tape canonical. -/
theorem wf_loadPair {s : State} (h : s.tape.wf) (opc opd : TapeCell) :
    (s.loadPair opc opd).tape.wf := Memory.wf_write (Memory.wf_write h _ _) _ _

/-- The state after a launch stores a canonical tape. -/
theorem wf_launch (cs : List TapeCell) (a b c : Word) (k : U64) : (launch cs a b c k).tape.wf :=
  Memory.wf_ofCellsFrom 0 cs

/-- The state after reset is a launch with the arguments of Config. -/
theorem wf_reset : State.reset.tape.wf := Memory.wf_nil

end Sys2Proof.Machine
end

