-- ==== Sys2Proof/Tests/Slice0.lean ====
section
/-! SUPPORT. Tests and witnesses. Expected values are the vectors of spec/95_test_vectors.md (the row is
named) or read off the encoding rules; none was produced by this model. A witness names the statement
whose hypotheses it meets. -/

namespace Sys2Proof.Tests

open Sys2Proof Sys2Proof.Machine

/-- The launch of a vector: bound 100. -/
def at0 (cells : List TapeCell) (a b c : Int) : State :=
  launch cells (BitVec.ofInt 64 a) (BitVec.ofInt 64 b) (BitVec.ofInt 64 c) 100

/-- The state an outcome answers, if any. -/
def after : Host.Outcome State Fault Refusal → Option State
  | .next t => some t
  | .fault _ | .refused _ => none

/-- The columns of a vector: registers, `pc`, `STEPS`, the output. -/
structure Row where
  a : Int
  b : Int
  c : Int
  pc : Nat
  steps : Nat
  out : List OutElem
  deriving DecidableEq, Repr

/-- The columns after one step. -/
def shown (s : State) : Option Row :=
  (after (step s)).map fun t =>
    ⟨t.a.toInt, t.b.toInt, t.c.toInt, t.pc.toNat, t.steps.toNat, t.out⟩

/-- The run state and the cause after one step. -/
def ended (s : State) : Option (RunState × Option Cause) :=
  (after (step s)).map fun t => (t.runState, t.cause)

/-! WellFormed: one ill-formed term for each check (R32). -/

theorem test_wf_accepts : (Instr.adv 6).wellFormed = true ∧ (Instr.jnz 6).wellFormed = true ∧
    (Instr.bxl 7).wellFormed = true ∧ (Instr.bxc 7).wellFormed = true := by decide
theorem test_wf_refuses_combo_seven : (Instr.adv 7).operandLegal = false ∧
    (Instr.bst 7).operandLegal = false ∧ (Instr.out 7).operandLegal = false ∧
    (Instr.bdv 7).operandLegal = false ∧ (Instr.cdv 7).operandLegal = false ∧
    (Instr.out 7).wellFormed = false := by decide
theorem test_wf_refuses_out_of_range : (Instr.bxl 8).operandInRange = false ∧
    (Instr.bxc 200).wellFormed = false := by decide
theorem test_wf_refuses_odd_jump : (Instr.jnz 3).jumpEven = false ∧
    (Instr.jnz 3).wellFormed = false := by decide

/-! Decoding: words written out bit by bit from R46 and R48. -/

/-- The instruction read from the bits of a pair word. -/
def word (w : BitVec 16) : Option Instr := decodeTableWord 16 w.toNat

theorem test_decode_adv : word 0b0000000000000101 = some (.adv 5) := by decide
theorem test_decode_bxl : word 0b0000000111001000 = some (.bxl 200) := by decide
theorem test_decode_bst : word 0b0000001000000110 = some (.bst 6) := by decide
theorem test_decode_jnz : word 0b0000001111111111 = some (.jnz 255) := by decide
theorem test_decode_bxc : word 0b0000010000000111 = some (.bxc 7) := by decide
theorem test_decode_out : word 0b0000010100000100 = some (.out 4) := by decide
theorem test_decode_bdv : word 0b0000011000000011 = some (.bdv 3) := by decide
theorem test_decode_cdv : word 0b0000011110000000 = some (.cdv 128) := by decide
theorem test_decode_refuses_opcodes_above_seven :
    word 0b0000100000000000 = none ∧ word 0b0000110000000000 = none ∧
    word 0b1000000000000000 = none ∧ word 0b1111111111111111 = none := by decide
/-- Program 2 of spec/95_test_vectors.md section 3: assembly and cells. -/
theorem test_assemble_program_2 :
    assemble [.adv 3, .out 4, .jnz 0] = [0, 3, 5, 4, 3, 0] := by decide
theorem test_assemble_line : assembleLine ['A', 'D', 'V', ' ', '3', ' ', ';', 'x'] = some (.adv 3) ∧
    assembleLine ['O', 'U', 'T', ' ', '2', '5', '6'] = none ∧
    assembleLine ['a', 'd', 'v', ' ', '3'] = none := by decide

/-- The same program as text (R59) and as listing (R60). -/
theorem test_assemble_lines :
    assembleLines [['A', 'D', 'V', ' ', '3'], [';', 'x'], ['O', 'U', 'T', ' ', '4']] =
      some [.adv 3, .out 4] ∧
    listing [0, 3, 5, 40] = ['0', ',', '3', ',', '5', ',', '4', '0'] := by decide

/-! One step of each instruction; the row of spec/95_test_vectors.md section 2 is named. -/

/-- 2.1 row 6 and row 8: the count is not taken modulo 64. -/
theorem test_adv_counts : shown (at0 [0, 5] (2 ^ 63 - 1) 62 0) = some ⟨1, 62, 0, 2, 1, []⟩ ∧
    shown (at0 [0, 5] (2 ^ 63 - 1) 64 0) = some ⟨0, 64, 0, 2, 1, []⟩ := by decide
/-- 2.1 row 16 and row 13: the operand is tested before the register; no shift of a negative value. -/
theorem test_adv_faults :
    ended (at0 [0, 7] (-1) 0 0) = some (.faulted, some (.invalidOperand 7)) ∧
    ended (at0 [0, 1] (-8) 0 0) =
      some (.faulted, some (.invalidRegisterState (BitVec.ofInt 64 (-8)) 1)) := by decide
/-- 2.1 row 20: the count is the old `B`. -/
theorem test_bdv_old_b : shown (at0 [6, 5] 2024 2 0) = some ⟨2024, 506, 0, 2, 1, []⟩ := by decide
/-- 2.1 row 25 and row 27: the count is the old `C`, and a negative one faults. -/
theorem test_cdv_old_c : shown (at0 [7, 6] 2024 0 4) = some ⟨2024, 0, 126, 2, 1, []⟩ ∧
    ended (at0 [7, 6] 2024 0 (-4)) =
      some (.faulted, some (.invalidRegisterState 2024 (BitVec.ofInt 64 (-4)))) := by decide
/-- 2.2 row 5 and row 6: zero extension; the sign is kept. -/
theorem test_bxl : shown (at0 [1, 255] 0 0 0) = some ⟨0, 255, 0, 2, 1, []⟩ ∧
    shown (at0 [1, 7] 0 (-1) 0) = some ⟨0, -8, 0, 2, 1, []⟩ := by decide
/-- 2.2 row 14 and row 16. -/
theorem test_bst : shown (at0 [2, 5] 0 (-13) 0) = some ⟨0, 3, 0, 2, 1, []⟩ ∧
    ended (at0 [2, 7] 0 5 0) = some (.faulted, some (.invalidOperand 7)) := by decide
/-- 2.2 row 17 and row 18: operand 7 is no fault. -/
theorem test_bxc : shown (at0 [4, 0] 0 2024 43690) = some ⟨0, 44354, 43690, 2, 1, []⟩ ∧
    shown (at0 [4, 7] 0 5 5) = some ⟨0, 0, 5, 2, 1, []⟩ := by decide
/-- 2.3 row 2 and row 3: a negative `A` jumps, zero falls through. -/
theorem test_jnz : shown (at0 [3, 4, 5, 1, 5, 2] (-1) 0 0) = some ⟨-1, 0, 0, 4, 1, []⟩ ∧
    shown (at0 [3, 4, 5, 1, 5, 2] 0 0 0) = some ⟨0, 0, 0, 2, 1, []⟩ := by decide
/-- 2.4 row 2 and section 1.2: combo 1 is the number 1 and not register `B`. -/
theorem test_out : shown (at0 [5, 6] (-1) (-8) (-13)) = some ⟨-1, -8, -13, 2, 1, [3]⟩ ∧
    shown (at0 [5, 1] 0 6 0) = some ⟨0, 6, 0, 2, 1, [1]⟩ := by decide

/-! The order of the tests of a step; spec/95_test_vectors.md sections 2.5 to 2.7. -/

/-- 2.6 row 2, 2.5 row 3, row 6, row 5, row 4. -/
theorem test_order_of_tests :
    ended (launch [] 0 0 0 0) = some (.halted, none) ∧
    ended (launch [9, 9] 0 0 0 0) = some (.faulted, some (.stepBoundExceeded 0)) ∧
    ended (launch [9] 0 0 0 0) = some (.faulted, some (.stepBoundExceeded 0)) ∧
    ended (at0 [9] 0 0 0) = some (.faulted, some (.operandFetchPastEnd 0)) ∧
    ended (at0 [9, 7] 0 0 0) = some (.faulted, some (.invalidOpcode 9)) := by decide
theorem test_fault_codes : (CauseName.invalidOpcode.code, CauseName.invalidOperand.code,
    CauseName.stepBoundExceeded.code, CauseName.invalidRegisterState.code,
    CauseName.operandFetchPastEnd.code) = (1, 2, 3, 4, 5) ∧ State.reset.causeCode = 0 := by decide
/-- The first instruction after reset is the placed one. -/
theorem test_withFetchWord : shown (State.reset.withFetchWord 16 0x0502) = some ⟨0, 0, 0, 2, 1, [2]⟩ ∧
    shown (State.reset.withFetchWord 16 0x0000) = some ⟨0, 0, 0, 2, 1, []⟩ := by decide

/-! Witnesses: states and operands that meet the hypotheses of the statements. -/

/-- A state at an odd `pc` (spec/95_test_vectors.md program 5 after step 1). -/
def odd : State := { at0 [3, 1, 5, 4, 0, 7] 1 0 0 with pc := 1, steps := 1 }

theorem witness_LaunchGivesTheInitialState :
    (at0 [5, 0] 0 0 0).memRead 1 = some 0 ∧ (at0 [5, 0] 0 0 0).memRead 2 = none := by decide
theorem witness_DecodeInvertsEncode :
    decode [7, 255, 9] = .ok (.cdv 255, [9]) := rfl
theorem witness_DecoderAgreesWithOpcodeTable :
    (0x07FF#16 &&& 0xFF00 = 0x0700) ∧ word 0x07FF = some (.cdv 255) ∧
    (∀ row ∈ opcodeTable, 0x0800#16 &&& row.2.2 ≠ row.2.1) := by decide
theorem witness_IllegalOpcodeIsRejected :
    7 < (8 : TapeCell).toNat ∧ (7 : TapeCell).toNat ≤ 7 ∧
    (at0 [8, 0] 0 0 0).runState = .running ∧
    (at0 [8, 0] 0 0 0).steps ≠ (at0 [8, 0] 0 0 0).stepBound ∧
    (at0 [8, 0] 0 0 0).memRead 0 = some 8 ∧ (at0 [8, 0] 0 0 0).memRead 1 = some 0 := by decide
/-- Each row of the table at the ends of its range (R50). -/
theorem witness_ComboTable : (0 : TapeCell).toNat ≤ 3 ∧ (3 : TapeCell).toNat ≤ 3 ∧
    (4 : TapeCell).toNat = 4 ∧ (5 : TapeCell).toNat = 5 ∧ (6 : TapeCell).toNat = 6 ∧
    7 ≤ (7 : TapeCell).toNat ∧ 7 ≤ (255 : TapeCell).toNat := by decide
theorem witness_IllegalComboOperandFaults : 7 ≤ (7 : TapeCell).toNat ∧
    (at0 [0, 7] 8 0 0).cause = none ∧
    (after (exec (.adv 7) (at0 [0, 7] 8 0 0))).map (·.cause) =
      some (some (.invalidOperand 7)) := by decide
/-- Counts 0, 62 and 63, the largest value (R65). -/
theorem witness_ShrIsFloorDivision : 0 ≤ (BitVec.ofInt 64 (2 ^ 63 - 1)).toInt ∧
    0 ≤ (0 : Word).toInt ∧ (62 : Word).toInt ≤ 62 ∧ 63 ≤ (63 : Word).toInt := by decide
/-- The three clauses of AdvDividesA, BdvDividesAIntoB and CdvDividesAIntoC: operand 6 is the last legal
one and 7 the first illegal one; `A = 0` and count 0 are the last non-negative ones. -/
theorem witness_divide : combo (at0 [] 0 0 0) 6 = some 0 ∧ 0 ≤ (at0 [] 0 0 0).a.toInt ∧
    0 ≤ (0 : Word).toInt ∧ 7 ≤ (7 : TapeCell).toNat ∧
    combo (at0 [] (-1) 0 0) 0 = some 0 ∧ (at0 [] (-1) 0 0).a.toInt < 0 ∧
    combo (at0 [] 8 (-1) 0) 5 = some (BitVec.ofInt 64 (-1)) ∧
    (BitVec.ofInt 64 (-1)).toInt < 0 := by decide
theorem witness_BxlXorsItsLiteral :
    (after (exec (.bxl 7) (at0 [] 0 (-8) 0))).map (·.b.toInt) = some (-1) := by decide
/-- BstTakesTheLowThreeBits and OutAppendsTheLowThreeBits: operands 0, 6, and 7. -/
theorem witness_low_three_bits : combo (at0 [] 0 0 (-13)) 0 = some 0 ∧
    combo (at0 [] 0 0 (-13)) 6 = some (BitVec.ofInt 64 (-13)) ∧ 7 ≤ (7 : TapeCell).toNat ∧
    (after (exec (.out 6) (at0 [] 0 0 (-13)))).isSome = true := by decide
theorem witness_JnzJumpsUnlessAIsZero :
    (at0 [] (-1) 0 0).a.toInt ≠ 0 ∧ (at0 [] 1 0 0).a.toInt ≠ 0 ∧ (at0 [] 0 0 0).a.toInt = 0 := by
  decide
/-- Targets at the end, on the last cell, and at an odd pair (2.3 rows 4, 8, 9). -/
theorem witness_JumpTargetsAtTheNextStep :
    ((at0 [3, 6, 5, 1, 5, 2] 1 0 0).memRead 0 = some 3 ∧
      (at0 [3, 6, 5, 1, 5, 2] 1 0 0).memRead 1 = some 6 ∧
      (at0 [3, 6, 5, 1, 5, 2] 1 0 0).len ≤ (6 : TapeCell).toNat) ∧
    ((at0 [3, 3, 5, 1] 1 0 0).memRead 1 = some 3 ∧
      (3 : TapeCell).toNat + 1 = (at0 [3, 3, 5, 1] 1 0 0).len ∧
      (at0 [3, 3, 5, 1] 1 0 0).steps + 1 ≠ (at0 [3, 3, 5, 1] 1 0 0).stepBound) ∧
    ((at0 [3, 3, 0, 3, 6, 0] 1 0 0).memRead 1 = some 3 ∧
      (at0 [3, 3, 0, 3, 6, 0] 1 0 0).instrAt 3 = some (.jnz 6) ∧
      (at0 [3, 3, 0, 3, 6, 0] 1 0 0).runState = .running ∧
      (at0 [3, 3, 0, 3, 6, 0] 1 0 0).a.toInt ≠ 0) := by decide
theorem witness_PcAdvancesByTwoUnlessJumpTaken :
    (after (exec (.adv 7) (at0 [] 1 0 0))).map (·.runState) = some .faulted ∧
    (after (exec (.jnz 9) (at0 [] 1 0 0))).map (·.runState) = some .running ∧
    (after (exec (.jnz 9) (at0 [] 0 0 0))).map (·.runState) = some .running := by decide
theorem witness_OnlyOutAppendsAndOnlyAtTheEnd :
    (at0 [5, 3] 0 0 0).instrAt 0 = some (.out 3) ∧ shown (at0 [5, 3] 0 0 0) =
      some ⟨0, 0, 0, 2, 1, [3]⟩ ∧ shown (at0 [5, 7] 0 0 0) = some ⟨0, 0, 0, 0, 0, []⟩ := by decide
theorem witness_EveryInstructionKeepsItsFrame :
    ([Instr.adv 0, .bxl 0, .bst 0, .jnz 0, .bxc 0, .out 0, .bdv 0, .cdv 0].all fun i =>
      (after (exec i (at0 [] 1 1 1))).isSome) = true := by decide
theorem witness_StepRunsTheFetchedInstruction : odd.runState = .running ∧
    odd.steps ≠ odd.stepBound ∧ odd.memRead odd.pc.toNat = some 1 ∧
    odd.memRead (odd.pc.toNat + 1) = some 5 ∧ decodePair 1 5 = .ok (.bxl 5) := ⟨rfl, by decide, by decide, by decide, rfl⟩
theorem witness_LoadedWordRunsNext :
    Memory.wf State.reset.tape ∧ decodeTableWord 16 (0x0503#16).toNat = some (.out 3) := by decide
theorem witness_StepAnswersExactlyWhenRunning : (at0 [] 0 0 0).runState = .running ∧
    (at0 [] 0 0 0).halt.runState = .halted ∧
    ((at0 [] 0 0 0).enterFault (.invalidOpcode 8)).runState = .faulted := by decide
theorem witness_HaltsExactlyPastTheEnd : (at0 [] 0 0 0).len ≤ (at0 [] 0 0 0).pc.toNat ∧
    ended (at0 [] 0 0 0) = some (.halted, none) := by decide
/-- The clauses of TestsOfAStepInOrder: halt, budget, last cell, opcode 8, operand 7, a negative `A`, and
an instruction that completes. -/
theorem witness_TestsOfAStepInOrder :
    ((at0 [] 0 0 0).len ≤ (at0 [] 0 0 0).pc.toNat) ∧
    ((launch [5, 0] 0 0 0 0).pc.toNat < (launch [5, 0] 0 0 0 0).len ∧
      (launch [5, 0] 0 0 0 0).steps = (launch [5, 0] 0 0 0 0).stepBound) ∧
    ((at0 [9] 0 0 0).pc.toNat + 1 = (at0 [9] 0 0 0).len) ∧
    ((at0 [8, 7] 0 0 0).memRead 0 = some 8 ∧ (at0 [8, 7] 0 0 0).memRead 1 = some 7) ∧
    ((at0 [2, 7] 0 0 0).instrAt 0 = some (.bst 7) ∧ (Instr.bst 7).opcode.mode = .combo) ∧
    ((at0 [0, 6] (-1) 0 0).instrAt 0 = some (.adv 6) ∧
      combo (at0 [0, 6] (-1) 0 0) 6 = some 0 ∧ (at0 [0, 6] (-1) 0 0).a.toInt < 0) ∧
    ((at0 [0, 6] 0 0 0).instrAt 0 = some (.adv 6) ∧ (Instr.adv 6).operandLegal = true ∧
      0 ≤ (at0 [0, 6] 0 0 0).a.toInt ∧ combo (at0 [0, 6] 0 0 0) 6 = some 0) := by decide
theorem witness_FaultsArePrecise :
    ended (at0 [0, 7] (-1) 0 0) = some (.faulted, some (.invalidOperand 7)) := by decide
/-- Another tape that agrees at `pc` and `pc + 1` and differs elsewhere. -/
theorem witness_UnreachedCellsAreNeverExamined :
    Memory.read [(0, 5), (1, 3), (2, 9)] 0 = (at0 [5, 3] 0 0 0).tape.read 0 ∧
    Memory.read [(0, 5), (1, 3), (2, 9)] 1 = (at0 [5, 3] 0 0 0).tape.read 1 := by decide
/-- StepKeepsTheRunInvariant and PcAndStepsNeverWrap: a state of a run, in the middle of it. -/
theorem witness_run_invariant : odd.Inv ∧ shown odd = some ⟨1, 5, 0, 3, 2, []⟩ :=
  ⟨⟨by decide, by decide, by decide, by decide, by decide, by decide, by decide, by decide⟩, by decide⟩
theorem witness_LaunchMeetsTheRunInvariant : [5, 0].length ≤ Config.lenMax := by decide
theorem witness_NonNegativeRegistersStaySo : (at0 [0, 3] 8 0 0).NonNegative ∧
    shown (at0 [0, 3] 8 0 0) = some ⟨1, 0, 0, 2, 1, []⟩ :=
  ⟨⟨by decide, by decide, by decide⟩, by decide⟩
/-- Program 2 of spec/95_test_vectors.md: a well-formed tape, for StepKeepsTheGoodRun,
WellFormedLaunchIsAGoodRun and WellFormedLaunchEndsWellOrOutOfBudget. -/
theorem witness_good_run : (at0 [0, 3, 5, 4, 3, 0] 117440 0 0).GoodRun ∧
    shown (at0 [0, 3, 5, 4, 3, 0] 117440 0 0) = some ⟨14680, 0, 0, 2, 1, []⟩ :=
  ⟨⟨by decide, by decide, ⟨by decide, by decide, by decide⟩, by decide⟩, by decide⟩
theorem witness_CanonicalTapeIsUnique : Memory.wf [(0, 5), (3, 1)] := by decide
/-- EveryRunEndsWithinItsBudget and LargerBoundGivesTheSameHalt: Scenario D. -/
theorem witness_bounds : (at0 [3, 0] 0 0 0).steps.toNat ≤ (at0 [3, 0] 0 0 0).stepBound.toNat ∧
    (1 : U64).toNat ≤ (2 : U64).toNat ∧
    (finalState (launch [3, 0] 0 0 0 1)).runState = .halted := by decide

end Sys2Proof.Tests
end

section
/-! Proofs. What an executed instruction and a step leave unchanged, said once over `Effect` and
`Transition`. -/

namespace Sys2Proof.Machine

/-- The next state of an instruction that completes, seen field by field (R13, R16, R22, R38). -/
structure Completes (i : Instr) (s t : State) : Prop where
  a : i.opcode ≠ .adv → t.a = s.a
  b : i.opcode ∉ [Opcode.bxl, .bst, .bxc, .bdv] → t.b = s.b
  c : i.opcode ≠ .cdv → t.c = s.c
  pc : (∃ opd, i = .jnz opd ∧ s.a.toInt ≠ 0 ∧ t.pc = literal opd) ∨
    ((∀ opd, i = .jnz opd → s.a.toInt = 0) ∧ t.pc = s.pc + 2)
  out : t.out = s.out ∨ (i.opcode = .out ∧ ∃ v, t.out = s.out ++ [v])
  runState : t.runState = s.runState
  cause : t.cause = s.cause
  steps : t.steps = s.steps + 1
  tape : t.tape = s.tape
  len : t.len = s.len
  stepBound : t.stepBound = s.stepBound

/-- A write to a register and the advance complete every instruction that owns the register (R13). -/
theorem completes_setReg {i : Instr} (s : State) (d : Reg) (v : Word)
    (ha : d = .a → i.opcode = .adv)
    (hb : d = .b → i.opcode ∈ [Opcode.bxl, .bst, .bxc, .bdv])
    (hc : d = .c → i.opcode = .cdv) : Completes i s (s.setReg d v).advance.retire := by
  have notJump : ∀ opd, i ≠ .jnz opd := by
    rintro opd rfl
    cases d
    · exact nomatch ha rfl
    · simp [Instr.opcode] at hb
    · exact nomatch hc rfl
  constructor
  case a => cases d <;> simp_all
  case b => cases d <;> simp_all
  case c => cases d <;> simp_all
  case pc => exact .inr ⟨fun opd h => absurd h (notJump opd), by simp⟩
  case out => exact .inl (by simp)
  all_goals simp

/-- The faults an instruction itself can raise, and when (R87, R89). -/
inductive Raises (i : Instr) (s : State) : Cause → Prop where
  | badOperand (hm : i.opcode.mode = .combo) (hv : 7 ≤ i.operand.toNat) :
      Raises i s (.invalidOperand i.operand)
  | badRegister (n : Word) (hi : i.opcode = .adv ∨ i.opcode = .bdv ∨ i.opcode = .cdv)
      (hn : combo s i.operand = some n) (h : s.a.toInt < 0 ∨ n.toInt < 0) :
      Raises i s (.invalidRegisterState s.a n)

/-- An instruction completes, or it raises a fault, which is all it does then (R97). -/
theorem Effect.completes_or_faults {i : Instr} {s t : State} (h : Effect i s t) :
    Completes i s t ∨ ∃ c, Raises i s c ∧ t = s.enterFault c := by
  cases h with
  | writes d v dest =>
    obtain ⟨ha, hb, hc⟩ := dest
    refine .inl (completes_setReg s d v (fun hd => ?_) (fun hd => ?_) fun hd => ?_)
    · obtain ⟨opd, n, rfl, -⟩ := ha hd; rfl
    · rcases hb hd with ⟨opd, rfl, -⟩ | ⟨opd, rfl, -⟩ | ⟨opd, n, rfl, -⟩ | ⟨opd, n, rfl, -⟩ <;>
        simp [Instr.opcode]
    · obtain ⟨opd, n, rfl, -⟩ := hc hd; rfl
  | appends opd n hi hn =>
    subst hi
    exact .inl ⟨fun _ => rfl, fun _ => rfl, fun _ => rfl, .inr ⟨nofun, rfl⟩, .inr ⟨rfl, _, rfl⟩,
      rfl, rfl, rfl, rfl, rfl, rfl⟩
  | jumps opd hi ha =>
    exact .inl ⟨fun _ => rfl, fun _ => rfl, fun _ => rfl, .inl ⟨opd, hi, ha, rfl⟩, .inl rfl,
      rfl, rfl, rfl, rfl, rfl, rfl⟩
  | fallsThrough opd hi ha =>
    exact .inl ⟨fun _ => rfl, fun _ => rfl, fun _ => rfl, .inr ⟨fun _ _ => ha, rfl⟩, .inl rfl,
      rfl, rfl, rfl, rfl, rfl, rfl⟩
  | badOperand hm hv => exact .inr ⟨_, .badOperand hm hv, rfl⟩
  | badRegister n hi hn h => exact .inr ⟨_, .badRegister n hi hn h, rfl⟩

/-- Two states with the same stored cells and the same `LEN` read alike. -/
theorem memRead_congr {s t : State} (ht : t.tape = s.tape) (hl : t.len = s.len) (k : Nat) :
    t.memRead k = s.memRead k := by
  unfold State.memRead; rw [ht, hl]

/-- The pair at an index with both cells on the tape is the instruction it decodes to. -/
theorem instrAt_of_decodePair {s : State} {k : Nat} {i : Instr} (h : k + 1 < s.len)
    (hd : decodePair (s.tape.read k) (s.tape.read (k + 1)) = .ok i) : s.instrAt k = some i := by
  have h0 : k < s.len := by omega
  simp [State.instrAt, State.memRead, h, h0, hd, Except.toOption]

/-- What a step answers: the halt, a fault, or the completion of the instruction at `pc` (R58). -/
inductive StepResult (s : State) : State → Prop where
  | halts (h : s.len ≤ s.pc.toNat) : StepResult s s.halt
  | faults (c : Cause) : StepResult s (s.enterFault c)
  | completes (i : Instr) (t : State) (hpc : s.pc.toNat + 1 < s.len) (hb : s.steps ≠ s.stepBound)
      (hi : s.instrAt s.pc.toNat = some i) (hc : Completes i s t) : StepResult s t

theorem Transition.stepResult {s t : State} (h : Transition s t) : StepResult s t := by
  cases h with
  | halts h => exact .halts h
  | outOfBudget => exact .faults _
  | pastEnd => exact .faults _
  | badOpcode => exact .faults _
  | executes h hb i t hd ht he =>
    rcases he.completes_or_faults with hc | ⟨c, -, rfl⟩
    · exact .completes i t h hb (instrAt_of_decodePair h hd) hc
    · exact .faults c

/-- A step answers from a running engine only, and then with one of the three results. -/
theorem stepResult_of_step {s t : State} (h : step s = .next t) :
    s.runState = .running ∧ StepResult s t :=
  (transition_of_step h).imp_right Transition.stepResult

/-- The launch constants are constant (R23, R24, R31). -/
theorem StepResult.launch_constants {s t : State} (h : StepResult s t) :
    t.tape = s.tape ∧ t.len = s.len ∧ t.stepBound = s.stepBound := by
  cases h with
  | halts => exact ⟨rfl, rfl, rfl⟩
  | faults => exact ⟨rfl, rfl, rfl⟩
  | completes i t hpc hb hi hc => exact ⟨hc.tape, hc.len, hc.stepBound⟩

/-- A step appends at most one element to the output (R25, R38). -/
theorem StepResult.out_grows {s t : State} (h : StepResult s t) :
    ∃ new : List OutElem, t.out = s.out ++ new ∧ new.length ≤ 1 := by
  cases h with
  | halts => exact ⟨[], by simp⟩
  | faults => exact ⟨[], by simp⟩
  | completes i t hpc hb hi hc =>
    rcases hc.out with e | ⟨-, v, e⟩
    · exact ⟨[], by simp [e]⟩
    · exact ⟨[v], e, by simp⟩

/-! The 64-bit sums (R18, R22). -/

/-- The target of a JNZ is its operand cell as a number (R49, R75). -/
@[simp] theorem literal_toNat (v : TapeCell) : (literal v).toNat = v.toNat := by
  rw [literal, BitVec.toNat_setWidth]
  omega

/-- A count that has not reached its bound does not wrap. -/
theorem toNat_steps_add_one {n bound : U64} (hle : n.toNat ≤ bound.toNat) (hne : n ≠ bound) :
    (n + 1).toNat = n.toNat + 1 ∧ n.toNat + 1 ≤ bound.toNat := by
  bv_omega

/-- Before the end of a tape of at most `LEN_MAX` cells `pc + 2` does not wrap. -/
theorem toNat_pc_add_two {pc : U64} {len : Nat} (h : pc.toNat + 1 < len)
    (hlen : len ≤ Config.lenMax) : (pc + 2).toNat = pc.toNat + 2 := by
  unfold Config.lenMax at hlen
  bv_omega

end Sys2Proof.Machine

end

section
/-! Proofs. The run invariant: where it holds at the start, and that a step keeps it. -/

namespace Sys2Proof.Machine

/-- In a running state of a run there is no cause (R21). -/
theorem State.Inv.cause_eq_none {s : State} (h : s.Inv) (hr : s.runState = .running) :
    s.cause = none := by
  have := h.causeIff
  simpa [hr] using this

/-- The halt past the end of the tape keeps the invariant (R93). -/
theorem State.Inv.halt {s : State} (h : s.Inv) (hr : s.runState = .running)
    (hpc : s.len ≤ s.pc.toNat) : s.halt.Inv where
  __ := h
  causeIff := by simp [h.cause_eq_none hr]
  haltedPast _ := hpc

/-- Taking a fault keeps the invariant (R96, R97). -/
theorem State.Inv.enterFault {s : State} (h : s.Inv) (c : Cause) : (s.enterFault c).Inv where
  __ := h
  causeIff := by simp
  haltedPast := nofun

/-- A completed instruction changes `STEPS`, as a number, by one. -/
theorem Completes.toNat_steps {i : Instr} {s t : State} (h : Completes i s t) (hinv : s.Inv)
    (hb : s.steps ≠ s.stepBound) : t.steps.toNat = s.steps.toNat + 1 := by
  rw [h.steps, (toNat_steps_add_one hinv.stepsBound hb).1]

/-- A completed instruction sets `pc`, as a number, two further or to its operand. -/
theorem Completes.toNat_pc {i : Instr} {s t : State} (h : Completes i s t) (hinv : s.Inv)
    (hpc : s.pc.toNat + 1 < s.len) :
    t.pc.toNat = s.pc.toNat + 2 ∨ ∃ opd, i = .jnz opd ∧ t.pc.toNat = opd.toNat := by
  rcases h.pc with ⟨opd, hi, -, e⟩ | ⟨-, e⟩
  · exact .inr ⟨opd, hi, by rw [e, literal_toNat]⟩
  · exact .inl (by rw [e, toNat_pc_add_two hpc hinv.lenBound])

/-- The completion of an instruction with budget left keeps the invariant. -/
theorem State.Inv.completes {i : Instr} {s t : State} (h : s.Inv) (hr : s.runState = .running)
    (hpc : s.pc.toNat + 1 < s.len) (hb : s.steps ≠ s.stepBound) (hc : Completes i s t) :
    t.Inv where
  tapeWf := hc.tape ▸ h.tapeWf
  tapeWithin := by rw [hc.tape, hc.len]; exact h.tapeWithin
  lenBound := hc.len ▸ h.lenBound
  pcBound := by
    rw [hc.len]
    rcases hc.toNat_pc h hpc with e | ⟨opd, -, e⟩ <;> omega
  outBound := by
    have hsteps := hc.toNat_steps h hb
    have hout := h.outBound
    rcases hc.out with e | ⟨-, v, e⟩ <;> simp only [e, List.length_append, List.length_singleton] <;>
      omega
  stepsBound := by
    rw [hc.stepBound, hc.toNat_steps h hb]
    exact (toNat_steps_add_one h.stepsBound hb).2
  causeIff := by rw [hc.runState, hc.cause]; exact h.causeIff
  haltedPast hh := by simp [hc.runState, hr] at hh

/-- Settles O32, by the three results of a step. -/
theorem stepKeepsTheRunInvariant : Obligations.StepKeepsTheRunInvariant := by
  intro s t hinv hstep
  obtain ⟨hr, hres⟩ := stepResult_of_step hstep
  cases hres with
  | halts hpc => exact hinv.halt hr hpc
  | faults c => exact hinv.enterFault c
  | completes i t hpc hb hi hc => exact hinv.completes hr hpc hb hc

/-- Settles O33: the stored tape of a listing is canonical and lies within it. -/
theorem launchMeetsTheRunInvariant : Obligations.LaunchMeetsTheRunInvariant := by
  intro cells a0 b0 c0 bound hlen
  exact {
    tapeWf := wf_launch cells a0 b0 c0 bound
    tapeWithin := fun x hx => by
      have hwithin := (Memory.mem_ofCellsFrom hx).2.1
      rwa [Nat.zero_add] at hwithin
    lenBound := hlen
    pcBound := Nat.zero_le _
    outBound := Nat.zero_le _
    stepsBound := Nat.zero_le _
    causeIff := by simp [launch]
    haltedPast := nofun }

/-- Settles O34, by the bounds of the run invariant. -/
theorem pcAndStepsNeverWrap : Obligations.PcAndStepsNeverWrap := by
  intro s t hinv hstep hrun
  obtain ⟨-, hres⟩ := stepResult_of_step hstep
  cases hres with
  | halts hpc => cases hrun
  | faults c => cases hrun
  | completes i t hpc hb hi hc =>
    refine ⟨hc.toNat_steps hinv hb, (hc.toNat_pc hinv hpc).imp_right ?_⟩
    rintro ⟨opd, rfl, e⟩
    exact ⟨opd, hi, e⟩

theorem reset_eq_launch : State.reset = launch [] 0 0 0 0 := rfl

/-- Settles O2: the reset state is a launch, and its `pc` is at the end of the empty tape. -/
theorem resetIsTheEmptyLaunch : Obligations.ResetIsTheEmptyLaunch := by
  refine ⟨reset_eq_launch, ?_, ?_⟩
  · rw [reset_eq_launch]
    exact launchMeetsTheRunInvariant [] 0 0 0 0 (Nat.zero_le _)
  · have atEnd : State.reset.len ≤ State.reset.pc.toNat := Nat.zero_le _
    rw [step_of_running rfl, cycle, if_pos atEnd]
    rfl

end Sys2Proof.Machine

end

section
/-! Proofs. The frame of an instruction and of a run. -/

namespace Sys2Proof.Machine

/-- Settles O19: a completing instruction moves `pc` as R16 says, a faulting one leaves it. -/
theorem pcAdvancesByTwoUnlessJumpTaken : Obligations.PcAdvancesByTwoUnlessJumpTaken := by
  intro i s t hrun hexec
  rcases (effect_of_exec hexec).completes_or_faults with hc | ⟨c, -, rfl⟩
  · have notFaulted : t.runState ≠ .faulted := by simp [hc.runState, hrun]
    refine ⟨fun hf => absurd hf notFaulted, fun _ => ?_⟩
    rcases hc.pc with ⟨opd, hi, ha, e⟩ | ⟨hi, e⟩
    · exact .inl ⟨opd, hi, ha, by rw [e, literal_toNat]⟩
    · exact .inr ⟨hi, e⟩
  · exact ⟨fun _ => rfl, fun hf => absurd rfl hf⟩

/-- Settles O23: the fields of a completion and of a fault, one by one. -/
theorem everyInstructionKeepsItsFrame : Obligations.EveryInstructionKeepsItsFrame := by
  intro i s t hexec
  rcases (effect_of_exec hexec).completes_or_faults with hc | ⟨c, -, rfl⟩
  · have hout : i.opcode ≠ .out → t.out = s.out := fun hi =>
      hc.out.resolve_right fun ⟨ho, _⟩ => hi ho
    exact ⟨hc.a, hc.b, hc.c, hout, memRead_congr hc.tape hc.len, hc.tape, hc.len, hc.stepBound,
      .inl ⟨hc.runState, hc.cause, hc.steps⟩⟩
  · simp

/-- Settles O24, by induction on the number of steps. -/
theorem runsKeepTheLaunchConstants : Obligations.RunsKeepTheLaunchConstants := by
  intro k
  induction k with
  | zero => intro s; simp [runFor]
  | succ k ih =>
    intro s
    unfold runFor
    cases hstep : step s with
    | fault r => simp
    | refused r => simp
    | next t =>
      obtain ⟨-, hres⟩ := stepResult_of_step hstep
      obtain ⟨htape, hlen, hbound⟩ := hres.launch_constants
      obtain ⟨new, hout, hnew⟩ := hres.out_grows
      obtain ⟨ihTape, ihLen, ihBound, ihPrefix, ihLength⟩ := ih t
      have growth : t.out.length ≤ s.out.length + 1 := by
        simp only [hout, List.length_append]; omega
      have outPrefix : s.out <+: t.out := hout ▸ List.prefix_append s.out new
      exact ⟨ihTape.trans htape, ihLen.trans hlen, ihBound.trans hbound, outPrefix.trans ihPrefix,
        ihLength.trans (by omega)⟩

end Sys2Proof.Machine

end

section
/-! Proofs. Changes of state that no instruction sees. -/

namespace Sys2Proof.Machine

/-- A change of state that no meaning sees: it leaves what `exec` and the tests of a step read as it is
and commutes with every update an instruction makes. What the fetch and the budget test read is not
among it. -/
structure Unread (f : State → State) : Prop where
  a : ∀ s, (f s).a = s.a
  b : ∀ s, (f s).b = s.b
  c : ∀ s, (f s).c = s.c
  pc : ∀ s, (f s).pc = s.pc
  runState : ∀ s, (f s).runState = s.runState
  len : ∀ s, (f s).len = s.len
  setReg : ∀ s r v, (f s).setReg r v = f (s.setReg r v)
  outAppend : ∀ s v, (f s).outAppend v = f (s.outAppend v)
  advance : ∀ s, (f s).advance = f s.advance
  jumpTo : ∀ s target, (f s).jumpTo target = f (s.jumpTo target)
  retire : ∀ s, (f s).retire = f s.retire
  halt : ∀ s, (f s).halt = f s.halt
  enterFault : ∀ s k, (f s).enterFault k = f (s.enterFault k)

section
variable {f : State → State} (hf : Unread f)
include hf

theorem raise_unread (k : Cause) (s : State) : raise k (f s) = mapNext f (raise k s) := by
  simp only [raise, hf.enterFault, mapNext]

theorem complete_unread (s : State) : complete (f s) = mapNext f (complete s) := by
  simp only [complete, hf.advance, hf.retire, mapNext]

theorem completeAt_unread (target : U64) (s : State) :
    completeAt target (f s) = mapNext f (completeAt target s) := by
  simp only [completeAt, hf.jumpTo, hf.retire, mapNext]

theorem withCombo_unread (v : TapeCell) (s : State)
    {k k' : Word → Host.Outcome State Fault Refusal} (hk : ∀ n, k' n = mapNext f (k n)) :
    withCombo v (f s) k' = mapNext f (withCombo v s k) := by
  unfold withCombo
  rw [combo_congr (hf.a s) (hf.b s) (hf.c s)]
  cases combo s v with
  | some n => exact hk n
  | none => exact raise_unread hf _ s

theorem divide_unread (d : Reg) (opd : TapeCell) (s : State) :
    divide d opd (f s) = mapNext f (divide d opd s) := by
  refine withCombo_unread hf opd s fun n => ?_
  rw [hf.a, hf.setReg, raise_unread hf, complete_unread hf, apply_ite (mapNext f)]

theorem execJnz_unread (opd : TapeCell) (s : State) :
    execJnz opd (f s) = mapNext f (execJnz opd s) := by
  rw [execJnz, State.getReg_a, hf.a, completeAt_unread hf, complete_unread hf,
    ← apply_ite (mapNext f)]
  rfl

/-- An instruction does the same after a change that it does not see. -/
theorem exec_unread (i : Instr) (s : State) : exec i (f s) = mapNext f (exec i s) := by
  cases i with
  | adv opd => exact divide_unread hf .a opd s
  | bdv opd => exact divide_unread hf .b opd s
  | cdv opd => exact divide_unread hf .c opd s
  | jnz opd => exact execJnz_unread hf opd s
  | bxl opd =>
    simp only [exec, execBxl, State.getReg_b, hf.b, hf.setReg, complete_unread hf]
  | bxc opd =>
    simp only [exec, execBxc, State.getReg_b, State.getReg_c, hf.b, hf.c, hf.setReg,
      complete_unread hf]
  | bst opd =>
    exact withCombo_unread hf opd s fun n => by rw [hf.setReg, complete_unread hf]
  | out opd =>
    exact withCombo_unread hf opd s fun n => by rw [hf.outAppend, complete_unread hf]

theorem fetchAndExecute_unread {s : State} (hfetch : (f s).fetchPair = s.fetchPair) :
    fetchAndExecute (f s) = mapNext f (fetchAndExecute s) := by
  unfold fetchAndExecute
  rw [hfetch]
  cases s.fetchPair with
  | none => simp only [hf.pc, raise_unread hf]
  | some pair =>
    obtain ⟨opc, opd⟩ := pair
    cases hd : decodePair opc opd with
    | ok i => simp only [hd, exec_unread hf]
    | error e => simp only [hd, raise_unread hf]

/-- A step does the same after a change that no meaning sees, if the fetch and the budget test do not
see it either. -/
theorem step_unread {s : State} (hfetch : (f s).fetchPair = s.fetchPair)
    (hbudget : (f s).steps = (f s).stepBound ↔ s.steps = s.stepBound) :
    step (f s) = mapNext f (step s) := by
  unfold step
  rw [hf.runState]
  cases s.runState with
  | halted => rfl
  | faulted => rfl
  | running =>
    simp only [cycle, hf.len, hf.pc, hf.halt, hbudget, raise_unread hf,
      fetchAndExecute_unread hf hfetch, apply_ite (mapNext f)]
    rfl

end

/-- Elements put before the output are not seen. -/
theorem unread_prepend_out (earlier : List OutElem) :
    Unread fun t => { t with out := earlier ++ t.out } where
  a _ := rfl
  b _ := rfl
  c _ := rfl
  pc _ := rfl
  runState _ := rfl
  len _ := rfl
  setReg _ r _ := by cases r <;> rfl
  outAppend s v := by simp [State.outAppend]
  advance _ := rfl
  jumpTo _ _ := rfl
  retire _ := rfl
  halt _ := rfl
  enterFault _ _ := rfl

/-- Settles O22: the output is among what no meaning sees, and neither the fetch nor the budget test
reads it. -/
theorem outputIsNeverRead : Obligations.OutputIsNeverRead := by
  intro s earlier
  exact step_unread (unread_prepend_out earlier) rfl Iff.rfl

end Sys2Proof.Machine

end

section
/-! Proofs. The run of a well-formed program with non-negative registers. -/

namespace Sys2Proof.Machine

/-! Non-negative values. -/

theorem literal_nonneg (v : TapeCell) : 0 ≤ (literal v).toInt := by
  rw [← isNegative_eq_false_iff, isNegative, literal, BitVec.getLsbD_setWidth]
  simp

theorem xor_nonneg {x y : Word} (hx : 0 ≤ x.toInt) (hy : 0 ≤ y.toInt) :
    0 ≤ (x ^^^ y).toInt := by
  rw [← isNegative_eq_false_iff, isNegative] at *
  rw [BitVec.getLsbD_xor, hx, hy]
  rfl

theorem low3_nonneg (v : Word) : 0 ≤ ((low3 v).setWidth 64 : Word).toInt := by
  rw [← isNegative_eq_false_iff, isNegative]
  simp

/-- With non-negative registers a Combo operand is non-negative (R50). -/
theorem combo_nonneg {s : State} (h : s.NonNegative) {v : TapeCell} {n : Word}
    (hn : combo s v = some n) : 0 ≤ n.toInt := by
  rcases combo_cases hn with ⟨e, hle⟩ | rfl | rfl | rfl
  · rw [BitVec.toInt_eq_toNat_of_lt (by omega)]; omega
  · exact h.a
  · exact h.b
  · exact h.c

/-- An instruction keeps the registers non-negative (R65, R70, R71, R72). -/
theorem Effect.nonNegative {i : Instr} {s t : State} (h : Effect i s t) (hs : s.NonNegative) :
    t.NonNegative := by
  cases h with
  | writes d v dest =>
    obtain ⟨ha, hb, hc⟩ := dest
    cases d with
    | a =>
      obtain ⟨opd, n, -, rfl, h0⟩ := ha rfl
      exact ⟨(shr_bounds h0 n).1, hs.b, hs.c⟩
    | b =>
      refine ⟨hs.a, ?_, hs.c⟩
      change 0 ≤ v.toInt
      rcases hb rfl with ⟨opd, -, rfl⟩ | ⟨opd, -, rfl⟩ | ⟨opd, n, -, rfl⟩ | ⟨opd, n, -, rfl, h0⟩
      · exact xor_nonneg hs.b (literal_nonneg opd)
      · exact xor_nonneg hs.b hs.c
      · exact low3_nonneg n
      · exact (shr_bounds h0 n).1
    | c =>
      obtain ⟨opd, n, -, rfl, h0⟩ := hc rfl
      exact ⟨hs.a, hs.b, (shr_bounds h0 n).1⟩
  | appends => exact ⟨hs.a, hs.b, hs.c⟩
  | jumps => exact ⟨hs.a, hs.b, hs.c⟩
  | fallsThrough => exact ⟨hs.a, hs.b, hs.c⟩
  | badOperand => exact ⟨hs.a, hs.b, hs.c⟩
  | badRegister => exact ⟨hs.a, hs.b, hs.c⟩

/-- A step keeps the registers non-negative. -/
theorem Transition.nonNegative {s t : State} (h : Transition s t) (hs : s.NonNegative) :
    t.NonNegative := by
  cases h with
  | executes h hb i t hd ht he => exact he.nonNegative hs
  | halts => exact ⟨hs.a, hs.b, hs.c⟩
  | outOfBudget => exact ⟨hs.a, hs.b, hs.c⟩
  | pastEnd => exact ⟨hs.a, hs.b, hs.c⟩
  | badOpcode => exact ⟨hs.a, hs.b, hs.c⟩

/-! Well-formed tapes. -/

/-- Well-formedness is of the stored cells and `LEN` alone. -/
theorem wellFormedTape_congr {s t : State} (ht : t.tape = s.tape) (hl : t.len = s.len)
    (h : s.wellFormedTape) : t.wellFormedTape := by
  have hread : t.memRead = s.memRead := funext (memRead_congr ht hl)
  have hinstr : t.instrAt = s.instrAt := by unfold State.instrAt; rw [hread]
  simpa only [State.wellFormedTape, hread, hinstr, hl] using h

/-- The Combo operand of an instruction that meets `P_COMBO` is 0 to 6 (R32). -/
theorem operand_le_of_operandLegal {i : Instr} (h : i.operandLegal = true)
    (hm : i.opcode.mode = .combo) : i.operand.toNat ≤ 6 := by
  cases i <;> simp_all [Instr.operandLegal, Instr.operand, Instr.opcode, Opcode.mode]

/-- An instruction at an even index of a well-formed tape meets `P_COMBO` and `P_JEVEN`. -/
theorem legal_of_wellFormedTape {s : State} (h : s.wellFormedTape) {k : Nat} {i : Instr}
    (hk : k % 2 = 0) (hlt : k < s.len) (hi : s.instrAt k = some i) :
    i.operandLegal = true ∧ i.jumpEven = true := by
  obtain ⟨heven, -, hcombo, hjump⟩ := h
  have hhalf : k / 2 < s.len / 2 := by omega
  rw [show k = 2 * (k / 2) by omega] at hi
  exact ⟨hcombo _ hhalf i hi, hjump _ hhalf i hi⟩

/-- With a legal operand and non-negative registers an instruction raises nothing (R53, R89). -/
theorem not_raises_of_legal {i : Instr} {s : State} {c : Cause} (hi : i.operandLegal = true)
    (hs : s.NonNegative) : ¬ Raises i s c := by
  intro h
  cases h with
  | badOperand hm hv =>
    have := operand_le_of_operandLegal hi hm
    omega
  | badRegister n _ hn h =>
    have ha := hs.a
    have hn := combo_nonneg hs hn
    omega

/-! The step of a good run. -/

/-- `pc` stays even when a JNZ has an even target (R17, `P_JEVEN`). -/
theorem Completes.pc_even {i : Instr} {s t : State} (h : Completes i s t)
    (hi : i.jumpEven = true) (hpc : s.pc.toNat % 2 = 0) : t.pc.toNat % 2 = 0 := by
  rcases h.pc with ⟨opd, rfl, -, e⟩ | ⟨-, e⟩
  · rw [e, literal_toNat]
    exact of_decide_eq_true hi
  · rw [e]
    bv_omega

/-- In a good run a step halts, uses up the budget, or completes an instruction that meets
`P_JEVEN`. -/
theorem State.GoodRun.transition_cases {s t : State} (h : s.GoodRun) (ht : Transition s t) :
    t = s.halt ∨ t = s.enterFault (.stepBoundExceeded s.pc) ∨
      ∃ i, i.jumpEven = true ∧ Completes i s t := by
  have hpc := h.pcEven
  obtain ⟨heven, hrange, -⟩ := h.tape
  cases ht with
  | halts => exact .inl rfl
  | outOfBudget => exact .inr (.inl rfl)
  | pastEnd hlast => omega
  | badOpcode hlt _ ho =>
    have hlt : s.pc.toNat < s.len := by omega
    have := hrange _ hlt (s.tape.read s.pc.toNat) (by simp [State.memRead, hlt])
    omega
  | executes hlt hb i t hd hexec he =>
    obtain ⟨hlegal, hjump⟩ :=
      legal_of_wellFormedTape h.tape hpc (by omega) (instrAt_of_decodePair hlt hd)
    rcases he.completes_or_faults with hc | ⟨c, hraises, -⟩
    · exact .inr (.inr ⟨i, hjump, hc⟩)
    · exact absurd hraises (not_raises_of_legal hlegal h.registers)

/-- Settles O36: the tape does not change, a JNZ has an even target, the registers stay non-negative, and
of the faults only the used-up budget is left. -/
theorem stepKeepsTheGoodRun : Obligations.StepKeepsTheGoodRun := by
  intro s t h hstep
  obtain ⟨-, htrans⟩ := transition_of_step hstep
  obtain ⟨htape, hlen, -⟩ := htrans.stepResult.launch_constants
  have keepsTape := wellFormedTape_congr htape hlen h.tape
  have keepsRegisters := htrans.nonNegative h.registers
  rcases h.transition_cases htrans with rfl | rfl | ⟨i, hjump, hc⟩
  · exact ⟨keepsTape, h.pcEven, keepsRegisters, h.cause⟩
  · exact ⟨keepsTape, h.pcEven, keepsRegisters, by simp [Cause.name]⟩
  · exact ⟨keepsTape, hc.pc_even hjump h.pcEven, keepsRegisters, by rw [hc.cause]; exact h.cause⟩

end Sys2Proof.Machine

end

section
/-! Proofs. The tape and the fetch: what a step reads of the tape, and that the stored form of a tape
is unique. -/

namespace Sys2Proof.Machine

/-! The step that executes (R33). -/

/-- The index of a cell that is read lies on the tape (R36). -/
theorem lt_len_of_memRead {s : State} {k : Nat} {v : TapeCell} (h : s.memRead k = some v) :
    k < s.len := by
  by_contra hk
  simp [State.memRead, hk] at h

/-- With both cells on the tape the fetch is the pair of them (R33). -/
theorem fetchPair_of_memRead {s : State} {opc opd : TapeCell}
    (hopc : s.memRead s.pc.toNat = some opc) (hopd : s.memRead (s.pc.toNat + 1) = some opd) :
    s.fetchPair = some (opc, opd) := by
  simp [State.fetchPair, hopc, hopd]

/-- Decoding a sequence of cells is decoding its first pair; the cells after it are left. -/
theorem decode_cons_cons_eq_ok_iff {opc opd : TapeCell} {rest rest' : List TapeCell} {i : Instr} :
    decode (opc :: opd :: rest) = .ok (i, rest') ↔ decodePair opc opd = .ok i ∧ rest = rest' := by
  unfold decode
  cases hd : decodePair opc opd <;> simp [hd]

/-- A running engine with budget left executes the pair at `pc` and `pc + 1`: neither the halt test
nor the budget test ends the step, and the fetch answers the two cells (R33, R58). -/
theorem step_eq_exec {s : State} {opc opd : TapeCell} {i : Instr} (hrun : s.runState = .running)
    (hbudget : s.steps ≠ s.stepBound) (hopc : s.memRead s.pc.toNat = some opc)
    (hopd : s.memRead (s.pc.toNat + 1) = some opd) (hpair : decodePair opc opd = .ok i) :
    step s = exec i s := by
  have onTape : ¬ s.len ≤ s.pc.toNat := Nat.not_le.2 (lt_len_of_memRead hopc)
  rw [step_of_running hrun, cycle, if_neg onTape, if_neg hbudget, fetchAndExecute,
    fetchPair_of_memRead hopc hopd]
  simp only [hpair]

/-- Settles O25: what the two cells decode to does not depend on the cells after them. -/
theorem stepRunsTheFetchedInstruction : Obligations.StepRunsTheFetchedInstruction := by
  intro s opc opd i rest hrun hbudget hopc hopd hdecode
  obtain ⟨hpair, -⟩ := decode_cons_cons_eq_ok_iff.1 hdecode
  exact step_eq_exec hrun hbudget hopc hopd hpair

/-! The load of one instruction (log 7). -/

section
variable (s : State) (opc opd : TapeCell)

@[simp] theorem loadPair_pc : (s.loadPair opc opd).pc = s.pc := rfl
@[simp] theorem loadPair_len : (s.loadPair opc opd).len = max s.len (s.pc.toNat + 2) := rfl
@[simp] theorem loadPair_runState : (s.loadPair opc opd).runState = .running := rfl

/-- A placed pair has a step of budget. -/
theorem steps_ne_stepBound_loadPair :
    (s.loadPair opc opd).steps ≠ (s.loadPair opc opd).stepBound := by
  by_cases h : s.steps = s.stepBound <;> simp [State.loadPair, h]

variable {s}

/-- The first placed cell is the opcode cell of the next fetch. -/
theorem memRead_pc_loadPair (h : s.tape.wf) :
    (s.loadPair opc opd).memRead (s.loadPair opc opd).pc.toNat = some opc := by
  simp [State.memRead, read_loadPair h]

/-- The second placed cell is the operand cell of the next fetch. -/
theorem memRead_pc_succ_loadPair (h : s.tape.wf) :
    (s.loadPair opc opd).memRead ((s.loadPair opc opd).pc.toNat + 1) = some opd := by
  simp [State.memRead, read_loadPair h]

end

/-- Reading a table word is decoding its two cells (R47). -/
theorem decodePair_of_decodeTableWord {nbits w : Nat} {i : Instr}
    (h : decodeTableWord nbits w = some i) :
    decodePair (tableCells nbits w).1 (tableCells nbits w).2 = .ok i := by
  unfold decodeTableWord at h
  split at h
  · next hdecode => cases h; exact (decode_cons_cons_eq_ok_iff.1 hdecode).1
  · cases h

/-- Settles O26: the placed cells are the ones that the next step fetches. -/
theorem loadedWordRunsNext : Obligations.LoadedWordRunsNext := by
  intro s w i hwf hword
  exact step_eq_exec (loadPair_runState s _ _) (steps_ne_stepBound_loadPair s _ _)
    (memRead_pc_loadPair _ _ hwf) (memRead_pc_succ_loadPair _ _ hwf)
    (decodePair_of_decodeTableWord hword)

/-! The cells that a step does not read (R32). -/

/-- No meaning reads the tape: only the fetch does (R30). -/
theorem unread_tape (m : Memory) : Unread fun t => { t with tape := m } where
  a _ := rfl
  b _ := rfl
  c _ := rfl
  pc _ := rfl
  runState _ := rfl
  len _ := rfl
  setReg _ r _ := by cases r <;> rfl
  outAppend _ _ := rfl
  advance _ := rfl
  jumpTo _ _ := rfl
  retire _ := rfl
  halt _ := rfl
  enterFault _ _ := rfl

/-- Settles O31: no meaning reads the tape, and the fetch reads it at `pc` and `pc + 1` only. -/
theorem unreachedCellsAreNeverExamined : Obligations.UnreachedCellsAreNeverExamined := by
  intro s m hopc hopd
  have sameFetch : State.fetchPair { s with tape := m } = s.fetchPair := by
    simp only [State.fetchPair, State.memRead, hopc, hopd]
  exact step_unread (unread_tape m) sameFetch Iff.rfl

/-! The output (R38). -/

/-- The `AND 7` as the remainder of the signed value (R11). -/
theorem low3_toNat_eq_toInt_emod (v : Word) : ((low3 v).toNat : Int) = v.toInt % 8 := by
  rw [low3_toNat, BitVec.toInt_eq_toNat_cond]
  split <;> omega

theorem eq_out_of_opcode {i : Instr} (h : i.opcode = .out) : i = .out i.operand := by
  rw [← instr_opcode_operand i, h, operand_instr]
  rfl

/-- An instruction appends to the output exactly when it is an OUT that completes (R38, R80). -/
theorem out_of_exec {i : Instr} {s t : State} (h : exec i s = .next t) :
    (t.out = s.out ∧ (i.opcode = .out → t.steps = s.steps)) ∨
    ∃ opd n, i = .out opd ∧ combo s opd = some n ∧ t.out = s.out ++ [low3 n] := by
  by_cases hi : i.opcode = .out
  · rw [eq_out_of_opcode hi] at h ⊢
    rcases execOut_cases i.operand s with ⟨n, hn, e⟩ | ⟨-, e⟩
    · obtain rfl : _ = t := Host.Outcome.next.inj (e.symm.trans h)
      exact .inr ⟨_, n, rfl, hn, rfl⟩
    · obtain rfl : _ = t := Host.Outcome.next.inj (e.symm.trans h)
      exact .inl ⟨rfl, fun _ => rfl⟩
  · obtain ⟨-, -, -, hout, -⟩ := everyInstructionKeepsItsFrame i s t h
    exact .inl ⟨hout hi, fun ho => absurd ho hi⟩

/-- Settles O21, by the outcomes of a step: of those that are not executions, none touches the output
or `STEPS`. -/
theorem onlyOutAppendsAndOnlyAtTheEnd : Obligations.OnlyOutAppendsAndOnlyAtTheEnd := by
  intro s t hstep
  obtain ⟨-, htrans⟩ := transition_of_step hstep
  cases htrans with
  | halts => exact .inl ⟨rfl, fun _ _ => rfl⟩
  | outOfBudget => exact .inl ⟨rfl, fun _ _ => rfl⟩
  | pastEnd => exact .inl ⟨rfl, fun _ _ => rfl⟩
  | badOpcode => exact .inl ⟨rfl, fun _ _ => rfl⟩
  | executes hlt hb i t hd hexec he =>
    rw [instrAt_of_decodePair hlt hd]
    rcases out_of_exec hexec with ⟨hout, hsteps⟩ | ⟨opd, n, rfl, hn, hout⟩
    · refine .inl ⟨hout, ?_⟩
      rintro opd ⟨⟩
      exact hsteps rfl
    · exact .inr ⟨opd, n, low3 n, rfl, hn, low3_toNat_eq_toInt_emod n, hout⟩

/-! The stored form of a tape (log 2). -/

/-- The entries of a canonical tape are the cells that do not read as an unlisted one. -/
theorem Memory.mem_iff_read {m : Memory} (hm : m.wf) (i : Nat) (v : TapeCell) :
    (i, v) ∈ m ↔ m.read i = v ∧ v ≠ Config.unlistedCell := by
  induction m with
  | nil => simpa [Memory.read] using fun h => h.symm
  | cons x m ih =>
    obtain ⟨k, w⟩ := x
    obtain ⟨hrising, hlisted⟩ := hm
    obtain ⟨habove, hrising⟩ := List.pairwise_cons.1 hrising
    have ih := ih ⟨hrising, fun y hy => hlisted y (List.mem_cons_of_mem _ hy)⟩
    have hw : w ≠ Config.unlistedCell := hlisted (k, w) List.mem_cons_self
    by_cases hik : i = k
    · subst hik
      have notBehind : (i, v) ∉ m := fun hv => Nat.lt_irrefl i (habove _ hv)
      simp only [List.mem_cons, notBehind, or_false, Prod.mk.injEq, true_and, Memory.read, if_true]
      exact ⟨fun e => ⟨e.symm, e ▸ hw⟩, fun ⟨e, _⟩ => e.symm⟩
    · simpa [Memory.read, hik] using ih

/-- Settles O38: the entries of both are the cells that do not read as an unlisted one, and a
strictly rising list is determined by its entries. -/
theorem canonicalTapeIsUnique : Obligations.CanonicalTapeIsUnique := by
  intro m m' hm hm' hread
  have sameEntries : ∀ x, x ∈ m ↔ x ∈ m' := fun ⟨i, v⟩ => by
    rw [Memory.mem_iff_read hm, Memory.mem_iff_read hm', hread]
  have irrefl : Std.Irrefl fun x y : Host.Cell => x.1 < y.1 := ⟨fun x => Nat.lt_irrefl x.1⟩
  have antisymm : Std.Antisymm fun x y : Host.Cell => x.1 < y.1 :=
    ⟨fun x y hxy hyx => absurd hxy (Nat.lt_asymm hyx)⟩
  exact hm.1.eq_of_mem_iff hm'.1 sameEntries

/-! The start of a good run (R113). -/

/-- Settles O37: `pc` starts at 0, the registers are the arguments, and there is no cause yet. -/
theorem wellFormedLaunchIsAGoodRun : Obligations.WellFormedLaunchIsAGoodRun := by
  intro cells a0 b0 c0 bound htape ha hb hc
  exact { tape := htape, pcEven := rfl, registers := ⟨ha, hb, hc⟩, cause := nofun }

end Sys2Proof.Machine

end

section
/-! Proofs. The decoder and the encoder: they are inverse to each other, and the decoder is the opcode
table (R46, R48, R52). -/

namespace Sys2Proof.Machine

/-! Opcode cells (R46). -/

/-- The opcode cell of a code is 0 to 7. -/
theorem toNat_code_cell_le (k : BitVec 3) : (k.setWidth 8 : TapeCell).toNat ≤ 7 := by
  revert k; decide

/-- The opcode is read back from its cell. -/
theorem extractLsb'_code_cell (k : BitVec 3) : (k.setWidth 8 : TapeCell).extractLsb' 0 3 = k := by
  revert k; decide

/-- A cell 0 to 7 is the cell of its low three bits. -/
theorem code_cell_extractLsb' {opc : TapeCell} (h : opc.toNat ≤ 7) :
    (opc.extractLsb' 0 3).setWidth 8 = opc := by
  apply BitVec.eq_of_toNat_eq
  simp only [BitVec.toNat_setWidth, BitVec.extractLsb'_toNat, Nat.shiftRight_zero]
  omega

/-! One pair. -/

/-- Two cells are the encoding of an instruction when the first is its opcode cell, the second its
operand (R45, R46). -/
@[simp] theorem encode_eq_iff {opc opd : TapeCell} {i : Instr} :
    encode i = [opc, opd] ↔ i.opcode.code.setWidth 8 = opc ∧ i.operand = opd := by
  simp [encode]

/-- The decoder reads from a pair of cells the instruction whose encoding they are, and no other. -/
theorem decodePair_eq_ok_iff {opc opd : TapeCell} {i : Instr} :
    decodePair opc opd = .ok i ↔ encode i = [opc, opd] := by
  rw [encode_eq_iff]
  constructor
  · intro h
    rcases decodePair_cases opc opd with ⟨hle, e⟩ | ⟨-, e⟩
    · rw [e] at h
      cases h
      rw [opcode_instr, code_opcodeOf, operand_instr]
      exact ⟨code_cell_extractLsb' hle, rfl⟩
    · rw [e] at h; cases h
  · rintro ⟨rfl, rfl⟩
    have hle := toNat_code_cell_le i.opcode.code
    rcases decodePair_cases (i.opcode.code.setWidth 8) i.operand with ⟨-, e⟩ | ⟨hgt, -⟩
    · rw [e, extractLsb'_code_cell, opcodeOf_code, instr_opcode_operand]
    · omega

/-- An opcode cell above 7 is refused with the cell (R52). -/
theorem decodePair_of_gt {opc : TapeCell} (h : 7 < opc.toNat) (opd : TapeCell) :
    decodePair opc opd = .error (.invalidOpcode opc) := by
  rcases decodePair_cases opc opd with ⟨hle, -⟩ | ⟨-, e⟩
  · omega
  · exact e

/-- An opcode cell 0 to 7 selects an operation (R48, R52). -/
theorem exists_decodePair_of_le {opc : TapeCell} (h : opc.toNat ≤ 7) (opd : TapeCell) :
    ∃ i, decodePair opc opd = .ok i := by
  rcases decodePair_cases opc opd with ⟨-, e⟩ | ⟨hgt, -⟩
  · exact ⟨_, e⟩
  · omega

/-! Sequences of cells. -/

/-- A sequence that does not start with an instruction's pair is refused with the pair's error. -/
theorem decode_cons_cons_of_error {opc opd : TapeCell} {e : DecodeError}
    (h : decodePair opc opd = .error e) (rest : List TapeCell) :
    decode (opc :: opd :: rest) = .error e := by
  simp only [decode, h]

/-- Settles O3: a pair decodes to the instruction whose encoding it is. -/
theorem decodeInvertsEncode : Obligations.DecodeInvertsEncode := by
  refine ⟨fun i rest => ?_, fun cells i rest h => ?_⟩
  · exact decode_cons_cons_eq_ok_iff.2 ⟨decodePair_eq_ok_iff.2 rfl, rfl⟩
  · match cells with
    | [] => cases h
    | [_] => cases h
    | opc :: opd :: tail =>
      obtain ⟨hpair, rfl⟩ := decode_cons_cons_eq_ok_iff.1 h
      rw [decodePair_eq_ok_iff.1 hpair]
      rfl

/-- Settles O5: the eight words are the encodings of their instructions, and the three others are no
pair or have an opcode cell above 7. -/
theorem writtenOutWordsDecode : Obligations.WrittenOutWordsDecode := by
  have reads (i : Instr) : decode (encode i) = .ok (i, []) := decodeInvertsEncode.1 i []
  have refuses (opc : TapeCell) (h : 7 < opc.toNat) : decode [opc, 0] = .error (.invalidOpcode opc) :=
    decode_cons_cons_of_error (decodePair_of_gt h 0) []
  exact ⟨reads (.adv 5), reads (.bxl 200), reads (.bst 4), reads (.jnz 0), reads (.bxc 7),
    reads (.out 6), reads (.bdv 3), reads (.cdv 5), refuses 8 (by decide), refuses 12 (by decide), rfl⟩

/-! The opcode table (R47, R48). -/

/-- The cells of a pair word: its high byte, then its low byte. -/
theorem tableCells_eq (w : BitVec 16) :
    tableCells 16 w.toNat = (w.extractLsb' 8 8, w.setWidth 8) := by
  have hlt := w.isLt
  refine Prod.ext (BitVec.eq_of_toNat_eq ?_) (BitVec.eq_of_toNat_eq ?_)
  · simp only [tableCells, min_self, BitVec.toNat_ofNat, BitVec.extractLsb'_toNat]
    omega
  · simp [tableCells]

/-- The decoder reads from a pair word the instruction whose cells are the two bytes of the word. -/
theorem decodeTableWord_eq_some_iff {w : BitVec 16} {i : Instr} :
    decodeTableWord 16 w.toNat = some i ↔ encode i = [w.extractLsb' 8 8, w.setWidth 8] := by
  rw [← decodePair_eq_ok_iff]
  constructor
  · intro h
    simpa only [tableCells_eq] using decodePair_of_decodeTableWord h
  · intro h
    have hdecode := (decode_cons_cons_eq_ok_iff (rest := [])).2 ⟨h, rfl⟩
    simp only [decodeTableWord, tableCells_eq, hdecode]

/-- A row of the table matches the operation's opcode cell and masks the operand cell off. -/
theorem mem_opcodeTable_iff {row : Opcode × BitVec 16 × BitVec 16} :
    row ∈ opcodeTable ↔ row = (row.1, (row.1.code.setWidth 8 : TapeCell) ++ 0#8, 0xFF00) := by
  obtain ⟨op, value, mask⟩ := row
  cases op <;> simp [opcodeTable, Opcode.code]

/-- Every operation has a row. -/
theorem exists_mem_opcodeTable (op : Opcode) : ∃ row ∈ opcodeTable, row.1 = op :=
  ⟨(op, (op.code.setWidth 8 : TapeCell) ++ 0#8, 0xFF00), mem_opcodeTable_iff.2 rfl, rfl⟩

/-- The mask compares the high byte of the pair word. -/
theorem and_mask_eq_iff {w : BitVec 16} {opc : TapeCell} :
    w &&& 0xFF00 = opc ++ 0#8 ↔ opc = w.extractLsb' 8 8 := by
  have highByte : w &&& 0xFF00 = w.extractLsb' 8 8 ++ 0#8 := calc
    w &&& 0xFF00 = (w.extractLsb' 8 8 ++ w.extractLsb' 0 8) &&& (BitVec.allOnes 8 ++ 0#8) := by
      rw [BitVec.extractLsb'_append_extractLsb' (w := 8)]; rfl
    _ = w.extractLsb' 8 8 ++ 0#8 := by
      rw [BitVec.and_append, BitVec.and_allOnes, BitVec.and_zero]
  rw [highByte, BitVec.append_left_inj, eq_comm]

/-- A row matches a pair word exactly when the word decodes to the row's operation with the low byte as
operand. -/
theorem row_matches_iff {row : Opcode × BitVec 16 × BitVec 16} (h : row ∈ opcodeTable)
    (w : BitVec 16) : w &&& row.2.2 = row.2.1 ↔
      decodeTableWord 16 w.toNat = some (row.1.instr (w.setWidth 8)) := by
  rw [mem_opcodeTable_iff.1 h, and_mask_eq_iff, decodeTableWord_eq_some_iff]
  simp

/-- Settles O4: a word that decodes at all decodes to the instruction of the one row that matches it. -/
theorem decoderAgreesWithOpcodeTable : Obligations.DecoderAgreesWithOpcodeTable := by
  intro w
  refine ⟨fun row hrow => row_matches_iff hrow w, fun noRow => ?_, fun hnone row hrow hmatch => ?_⟩
  · refine Option.eq_none_iff_forall_ne_some.2 fun i hi => ?_
    obtain ⟨-, hoperand⟩ := encode_eq_iff.1 (decodeTableWord_eq_some_iff.1 hi)
    obtain ⟨row, hrow, hop⟩ := exists_mem_opcodeTable i.opcode
    refine noRow row hrow ((row_matches_iff hrow w).2 ?_)
    rw [hi, hop, ← hoperand, instr_opcode_operand]
  · rw [row_matches_iff hrow, hnone] at hmatch
    cases hmatch

/-! Illegal opcodes (R52, R86). -/

/-- A running engine with budget left raises `InvalidOpcode` on a fetched opcode cell above 7. -/
theorem step_of_illegal_opcode {s : State} {opc opd : TapeCell} (hrun : s.runState = .running)
    (hbudget : s.steps ≠ s.stepBound) (hopc : s.memRead s.pc.toNat = some opc)
    (hopd : s.memRead (s.pc.toNat + 1) = some opd) (hgt : 7 < opc.toNat) :
    step s = raise (.invalidOpcode opc) s := by
  have onTape : ¬ s.len ≤ s.pc.toNat := Nat.not_le.2 (lt_len_of_memRead hopc)
  rw [step_of_running hrun, cycle, if_neg onTape, if_neg hbudget, fetchAndExecute,
    fetchPair_of_memRead hopc hopd]
  simp only [decodePair_of_gt hgt]

/-- Settles O6: the pair decides for the decoder and for the step. -/
theorem illegalOpcodeIsRejected : Obligations.IllegalOpcodeIsRejected := by
  refine ⟨fun opc opd rest hgt => decode_cons_cons_of_error (decodePair_of_gt hgt opd) rest,
    fun opc opd rest hle => ?_, fun s opc opd hrun hbudget hopc hopd hgt =>
    step_of_illegal_opcode hrun hbudget hopc hopd hgt⟩
  obtain ⟨i, hi⟩ := exists_decodePair_of_le hle opd
  refine ⟨i, decode_cons_cons_eq_ok_iff.2 ⟨hi, rfl⟩, ?_, operand_of_decodePair hi⟩
  obtain ⟨hcell, -⟩ := encode_eq_iff.1 (decodePair_eq_ok_iff.1 hi)
  rw [← hcell, BitVec.toNat_setWidth_of_le (by decide)]

end Sys2Proof.Machine

end

section
/-! Proofs. The assembler reads the line of an instruction (R59). -/

namespace Sys2Proof.Machine

/-! The number. -/

/-- The number after one more digit, as `decimal` reads it. -/
def appendDigit (n : Option Nat) (d : Char) : Option Nat :=
  n.bind fun k => if d.isDigit then some (10 * k + (d.toNat - 48)) else none

theorem decimal_eq_foldl {ds : List Char} (h : ds ≠ []) :
    decimal ds = ds.foldl appendDigit (some 0) :=
  if_neg (by simpa using h)

/-- A sequence of digits, read from a number on, is the library's reading of it. -/
theorem foldl_appendDigit {ds : List Char} (h : ∀ d ∈ ds, d.isDigit = true) (k : Nat) :
    ds.foldl appendDigit (some k) = some (Nat.ofDigitChars 10 ds k) := by
  induction ds generalizing k with
  | nil => rfl
  | cons d ds ih =>
    obtain ⟨hd, hds⟩ := List.forall_mem_cons.1 h
    have oneDigit : appendDigit (some k) d = some (10 * k + (d.toNat - 48)) := if_pos hd
    rw [List.foldl_cons, oneDigit, ih hds]
    rfl

theorem isDigit_of_mem_toDigits_ten {n : Nat} {d : Char} (h : d ∈ Nat.toDigits 10 n) :
    d.isDigit = true :=
  Nat.isDigit_of_mem_toDigits (by decide) (by decide) h

/-- The decimal digits of a number are read as the number. -/
theorem decimal_toDigits (n : Nat) : decimal (Nat.toDigits 10 n) = some n := by
  rw [decimal_eq_foldl Nat.toDigits_ne_nil, foldl_appendDigit fun d => isDigit_of_mem_toDigits_ten,
    Nat.ofDigitChars_ten_toDigits]

/-! The words. -/

theorem opcodeOfMnemonic_mnemonic (op : Opcode) : opcodeOfMnemonic (mnemonic op) = some op := by
  cases op <;> rfl

/-- What can stand as one word on a line: no space divides it and no comment starts in it. -/
abbrev IsWord (w : List Char) : Prop := w ≠ [] ∧ ' ' ∉ w ∧ ';' ∉ w

theorem isWord_mnemonic (op : Opcode) : IsWord (mnemonic op) := by cases op <;> decide

theorem isWord_toDigits (n : Nat) : IsWord (Nat.toDigits 10 n) :=
  ⟨Nat.toDigits_ne_nil, fun h => absurd (isDigit_of_mem_toDigits_ten h) (by decide),
    fun h => absurd (isDigit_of_mem_toDigits_ten h) (by decide)⟩

/-- A line of two words with a space between them has these two words. -/
theorem lineWords_of_two {m n : List Char} (hm : IsWord m) (hn : IsWord n) :
    lineWords (m ++ ' ' :: n) = [m, n] := by
  obtain ⟨hmne, hmspace, hmcomment⟩ := hm
  obtain ⟨hnne, hnspace, hncomment⟩ := hn
  have noComment : (m ++ ' ' :: n).takeWhile (· ≠ ';') = m ++ ' ' :: n := by
    rw [List.takeWhile_eq_self_iff]
    intro c hc
    have hne : c ≠ ';' := by
      rintro rfl
      simp [hmcomment, hncomment] at hc
    simpa using hne
  rw [lineWords, noComment, List.splitOn_append_cons_self_of_not_mem hmspace,
    List.splitOn_eq_singleton hnspace]
  simp [hmne, hnne]

/-- Settles O7: the line of an instruction has two words, its mnemonic and its operand cell. -/
theorem assemblerReadsItsOwnLines : Obligations.AssemblerReadsItsOwnLines := by
  intro i
  have hwords : lineWords (instrLine i) = [mnemonic i.opcode, Nat.toDigits 10 i.operand.toNat] :=
    lineWords_of_two (isWord_mnemonic _) (isWord_toDigits _)
  have hcell : i.operand.toNat ≤ 255 := by omega
  simp only [assembleLine, hwords, opcodeOfMnemonic_mnemonic, decimal_toDigits, if_pos hcell,
    BitVec.ofNat_toNat, BitVec.setWidth_eq, instr_opcode_operand]

end Sys2Proof.Machine

end

section
/-! Proofs. The operand resolver and its fault (R50, R53, R87). -/

namespace Sys2Proof.Machine

/-- The operands 0 to 3 are themselves (R50). -/
theorem combo_of_le {v : TapeCell} (h : v.toNat ≤ 3) (s : State) : combo s v = some (literal v) := by
  have : v = 0 ∨ v = 1 ∨ v = 2 ∨ v = 3 := by bv_omega
  rcases this with rfl | rfl | rfl | rfl <;> rfl

/-- The zero extension of a cell keeps its number as a signed value too (R49). -/
theorem literal_toInt (v : TapeCell) : (literal v).toInt = v.toNat := by
  rw [(toInt_of_nonneg (literal_nonneg v)).1, literal_toNat]

/-- Settles O8: row by row. -/
theorem comboTable : Obligations.ComboTable := by
  intro s v
  refine ⟨fun h => ⟨_, combo_of_le h s, literal_toInt v⟩, fun h => ?_, fun h => ?_, fun h => ?_,
    fun h => ⟨(combo_eq_none_iff s v).2 h, fun k => withCombo_of_illegal h k⟩⟩
  · simp [combo, h]
  · simp [combo, h]
  · simp [combo, h]

/-- The instructions of mode Combo with a given operand are the five of R53. -/
theorem mem_comboInstrs_iff {i : Instr} {v : TapeCell} :
    i ∈ [Instr.adv v, .bst v, .out v, .bdv v, .cdv v] ↔
      i.opcode.mode = .combo ∧ i.operand = v := by
  cases i <;> simp [Instr.opcode, Opcode.mode, Instr.operand]

/-- Each of the five raises on an illegal operand, whatever the registers hold. -/
theorem exec_of_illegal_operand {i : Instr} (hm : i.opcode.mode = .combo)
    (hv : 7 ≤ i.operand.toNat) (s : State) :
    exec i s = raise (.invalidOperand i.operand) s := by
  cases i with
  | adv v | bst v | out v | bdv v | cdv v => exact withCombo_of_illegal hv _
  | bxl v | jnz v | bxc v => cases hm

/-- Settles O9: an instruction completes and keeps the cause, or raises one of its own. -/
theorem illegalComboOperandFaults : Obligations.IllegalComboOperandFaults := by
  refine ⟨fun s v hv i hi => ?_, fun i s t v hnone hexec hcause => ?_⟩
  · obtain ⟨hm, rfl⟩ := mem_comboInstrs_iff.1 hi
    exact exec_of_illegal_operand hm hv s
  · rcases (effect_of_exec hexec).completes_or_faults with hc | ⟨c, hraises, rfl⟩
    · rw [hc.cause, hnone] at hcause
      cases hcause
    · obtain rfl : c = .invalidOperand v := Option.some.inj hcause
      cases hraises with
      | badOperand hm hv => exact ⟨mem_comboInstrs_iff.2 ⟨hm, rfl⟩, hv⟩

end Sys2Proof.Machine

end

section
/-! Proofs. When a step answers (R58). -/

namespace Sys2Proof.Machine

/-- Settles O27: the cycle of a running engine always answers, and an ended engine stops by name. -/
theorem stepAnswersExactlyWhenRunning : Obligations.StepAnswersExactlyWhenRunning := by
  intro s
  refine ⟨⟨fun hrun => ?_, fun ⟨t, ht⟩ => (transition_of_step ht).1⟩, fun h => ?_, fun h => ?_⟩
  · obtain ⟨t, ht, -⟩ := cycle_transition s
    exact ⟨t, (step_of_running hrun).trans ht⟩
  · simp only [step, h]
  · simp only [step, h]

end Sys2Proof.Machine

end

section
/-! Proofs. The shift family: registers that are not negative stay so (R65, R89), and what ADV, BDV and CDV
write (R66, R67, R68). -/

namespace Sys2Proof.Machine

/-! Steps from non-negative registers. -/

/-- No instruction increases `A`: only ADV writes it, and it writes a quotient of it (R13, R65). -/
theorem Effect.a_le {i : Instr} {s t : State} (h : Effect i s t) : t.a.toInt ≤ s.a.toInt := by
  cases h with
  | writes d v dest =>
    obtain ⟨ha, -, -⟩ := dest
    cases d with
    | a =>
      obtain ⟨opd, n, -, rfl, h0⟩ := ha rfl
      exact (shr_bounds h0 n).2
    | b => exact le_rfl
    | c => exact le_rfl
  | appends | jumps | fallsThrough | badOperand | badRegister => exact le_rfl

/-- No step increases `A`. -/
theorem Transition.a_le {s t : State} (h : Transition s t) : t.a.toInt ≤ s.a.toInt := by
  cases h with
  | executes hlt hb i t hd hexec he => exact he.a_le
  | halts | outOfBudget | pastEnd | badOpcode => exact le_rfl

/-- With non-negative registers the one fault an instruction can raise is `InvalidOperand` (R87, R89). -/
theorem Raises.eq_invalidOperand {i : Instr} {s : State} {c : Cause} (h : Raises i s c)
    (hs : s.NonNegative) : c = .invalidOperand i.operand := by
  cases h with
  | badOperand => rfl
  | badRegister n _ hn hneg =>
    have ha := hs.a
    have hn := combo_nonneg hs hn
    omega

/-- From non-negative registers a step keeps the cause or raises one that is not
`InvalidRegisterState`. -/
theorem Transition.cause_cases {s t : State} (h : Transition s t) (hs : s.NonNegative) :
    t.cause = s.cause ∨ ∃ c, t.cause = some c ∧ c.name ≠ .invalidRegisterState := by
  cases h with
  | halts => exact .inl rfl
  | outOfBudget | pastEnd | badOpcode => exact .inr ⟨_, rfl, nofun⟩
  | executes hlt hb i t hd hexec he =>
    rcases he.completes_or_faults with hc | ⟨c, hraises, rfl⟩
    · exact .inl hc.cause
    · obtain rfl := hraises.eq_invalidOperand hs
      exact .inr ⟨_, rfl, nofun⟩

/-- Settles O35, by what one transition does to the registers, to `A` and to the cause. -/
theorem nonNegativeRegistersStaySo : Obligations.NonNegativeRegistersStaySo := by
  intro s t hs hstep
  obtain ⟨-, htrans⟩ := transition_of_step hstep
  refine ⟨htrans.nonNegative hs, htrans.a_le, fun x n hcause => ?_⟩
  rcases htrans.cause_cases hs with e | ⟨c, e, hname⟩
  · rwa [e] at hcause
  · obtain rfl : c = .invalidRegisterState x n := Option.some.inj (e.symm.trans hcause)
    exact absurd rfl hname

/-! The quotient (R65). -/

/-- `shr` is the floor of the division, in signed values. -/
theorem shr_toInt {a n : Word} (ha : 0 ≤ a.toInt) (hn : 0 ≤ n.toInt) :
    (shr a n).toInt = a.toInt / (2 : Int) ^ n.toInt.toNat := by
  obtain ⟨haNat, hlt⟩ := toInt_of_nonneg ha
  obtain ⟨hnNat, -⟩ := toInt_of_nonneg hn
  obtain ⟨hqNat, -⟩ := toInt_of_nonneg (shr_bounds ha n).1
  rw [hqNat, haNat, hnNat, shr_toNat hlt, Int.toNat_natCast]
  push_cast
  rfl

/-- The count is not reduced modulo 64 (decision D6). -/
theorem shr_of_le_count {n : Word} (h : 63 ≤ n.toNat) (a : Word) : shr a n = 0 :=
  if_neg (by omega)

/-- On a non-negative value `shr` is the logical right shift. -/
theorem shr_eq_ushiftRight {a : Word} (ha : 0 ≤ a.toInt) (n : Word) : shr a n = a >>> n.toNat := by
  obtain ⟨-, hlt⟩ := toInt_of_nonneg ha
  apply BitVec.eq_of_toNat_eq
  rw [shr_toNat hlt, BitVec.toNat_ushiftRight, Nat.shiftRight_eq_div_pow]

/-- On a non-negative value the arithmetic right shift is the logical one. -/
theorem sshiftRight_of_nonneg {a : Word} (ha : 0 ≤ a.toInt) (k : Nat) :
    a.sshiftRight k = a >>> k :=
  BitVec.sshiftRight_eq_of_msb_false (BitVec.msb_eq_false_iff_two_mul_lt.2 (by
    obtain ⟨-, hlt⟩ := toInt_of_nonneg ha
    omega))

/-- Settles O10: the law of the quotient, its bounds, and the two shifts, which agree with it for every
count. -/
theorem shrIsFloorDivision : Obligations.ShrIsFloorDivision := by
  intro a n ha hn
  obtain ⟨hnNat, -⟩ := toInt_of_nonneg hn
  obtain ⟨hnonneg, hle⟩ := shr_bounds ha n
  refine ⟨shr_toInt ha hn, hnonneg, hle, fun hbig => ?_, fun _ => ⟨shr_eq_ushiftRight ha n, ?_⟩⟩
  · rw [shr_of_le_count (by omega)]
    rfl
  · rw [sshiftRight_of_nonneg ha, shr_eq_ushiftRight ha]

/-! ADV, BDV, CDV: the common body on a legal operand, whatever the destination. -/

section
variable {s : State} {opd : TapeCell} {n : Word} (hn : combo s opd = some n) (d : Reg)
include hn

/-- With a non-negative value and count the quotient is written (R65). -/
theorem divide_of_nonneg (ha : 0 ≤ s.a.toInt) (h0 : 0 ≤ n.toInt) :
    divide d opd s = complete (s.setReg d (shr s.a n)) := by
  rw [divide, withCombo_of_some hn, (isNegative_eq_false_iff s.a).2 ha,
    (isNegative_eq_false_iff n).2 h0]
  rfl

/-- A negative value or count raises `InvalidRegisterState` (decisions D4, D5). -/
theorem divide_of_negative (h : s.a.toInt < 0 ∨ n.toInt < 0) :
    divide d opd s = raise (.invalidRegisterState s.a n) s := by
  rw [divide, withCombo_of_some hn, if_pos]
  simpa only [Bool.or_eq_true, isNegative_iff] using h

end

/-- Settles O11: the common body with the destination `A`. -/
theorem advDividesA : Obligations.AdvDividesA := by
  intro s opd
  refine ⟨fun n hn ha h0 => ?_, fun hv => ?_, fun n hn hneg => divide_of_negative hn .a hneg, rfl⟩
  · obtain ⟨hnonneg, hle⟩ := shr_bounds ha n
    exact ⟨shr s.a n, shr_toInt ha h0, hnonneg, hle, divide_of_nonneg hn .a ha h0⟩
  · exact exec_of_illegal_operand (i := .adv opd) rfl hv s

/-- Settles O12: the common body with the destination `B`. -/
theorem bdvDividesAIntoB : Obligations.BdvDividesAIntoB := by
  intro s opd
  refine ⟨fun n hn ha h0 => ?_, fun hv => ?_, fun n hn hneg => divide_of_negative hn .b hneg, rfl⟩
  · exact ⟨shr s.a n, shr_toInt ha h0, divide_of_nonneg hn .b ha h0⟩
  · exact exec_of_illegal_operand (i := .bdv opd) rfl hv s

/-- Settles O13: the common body with the destination `C`. -/
theorem cdvDividesAIntoC : Obligations.CdvDividesAIntoC := by
  intro s opd
  refine ⟨fun n hn ha h0 => ?_, fun hv => ?_, fun n hn hneg => divide_of_negative hn .c hneg, rfl⟩
  · exact ⟨shr s.a n, shr_toInt ha h0, divide_of_nonneg hn .c ha h0⟩
  · exact exec_of_illegal_operand (i := .cdv opd) rfl hv s

end Sys2Proof.Machine

end

section
/-! Proofs. The bitwise family: what BXL, BST and BXC write to `B` (R70, R71, R72). -/

namespace Sys2Proof.Machine

/-- The XOR of two patterns is negative exactly when one of them is and the other is not (R11). -/
theorem xor_toInt_neg_iff (x y : Word) :
    (x ^^^ y).toInt < 0 ↔ ¬(x.toInt < 0 ↔ y.toInt < 0) := by
  have signBit : isNegative (x ^^^ y) = (isNegative x ^^ isNegative y) := BitVec.getLsbD_xor
  rw [← isNegative_iff, ← isNegative_iff, ← isNegative_iff, signBit, Bool.xor_iff_ne, ne_eq,
    Bool.eq_iff_iff]

/-- The zero extension of a cell has no bit from 8 up (R49). -/
theorem literal_getLsbD_of_le {k : Nat} (h : 8 ≤ k) (v : TapeCell) :
    (literal v).getLsbD k = false := by
  rw [literal, BitVec.getLsbD_setWidth, BitVec.getLsbD_of_ge v k h, Bool.and_false]

/-- The value BST writes, `low3` zero-extended, is the remainder of the signed value (R71). -/
theorem low3_setWidth_toInt (v : Word) : ((low3 v).setWidth 64 : Word).toInt = v.toInt % 8 := by
  rw [(toInt_of_nonneg (low3_nonneg v)).1, BitVec.toNat_setWidth_of_le (by decide),
    low3_toNat_eq_toInt_emod]

/-- Settles O14: the operand is non-negative and has no bit from 8 up, and XOR is its own inverse. -/
theorem bxlXorsItsLiteral : Obligations.BxlXorsItsLiteral := by
  intro s opd
  refine ⟨rfl, s.b ^^^ literal opd, execBxl_eq opd s, ?_, fun k hk => ?_, ?_, fun u hu => ?_⟩
  · rw [BitVec.toNat_xor, literal_toNat]
  · rw [BitVec.getLsbD_xor, literal_getLsbD_of_le hk, Bool.xor_false]
  · have nonneg := not_lt.2 (literal_nonneg opd)
    rw [xor_toInt_neg_iff, iff_false_right nonneg, not_not]
  · obtain rfl : _ = u := Host.Outcome.next.inj ((execBxl_eq opd _).symm.trans hu)
    calc s.b ^^^ literal opd ^^^ literal opd
      _ = s.b ^^^ (literal opd ^^^ literal opd) := BitVec.xor_assoc ..
      _ = s.b := by rw [BitVec.xor_self, BitVec.xor_zero]

/-- Settles O15: a legal operand goes on to the write, an illegal one raises. -/
theorem bstTakesTheLowThreeBits : Obligations.BstTakesTheLowThreeBits := by
  intro s opd
  refine ⟨fun n hn => ⟨_, low3_setWidth_toInt n, withCombo_of_some hn _⟩, fun hv => ?_, rfl⟩
  exact exec_of_illegal_operand (i := .bst opd) rfl hv s

/-- Settles O16: the value written reads the registers only, so it is one for every operand. -/
theorem bxcXorsBAndC : Obligations.BxcXorsBAndC := by
  intro s
  exact ⟨s.b ^^^ s.c, BitVec.toNat_xor .., xor_toInt_neg_iff s.b s.c,
    fun opd => ⟨rfl, execBxc_eq opd s⟩⟩

end Sys2Proof.Machine

end

section
/-! Proofs. Control transfer: what JNZ does, and what the step after a taken jump does with each kind of
target (R75, R76). -/

namespace Sys2Proof.Machine

/-! The two ways of JNZ (R75). -/

theorem exec_jnz_of_ne_zero {s : State} (h : s.a.toInt ≠ 0) (opd : TapeCell) :
    exec (.jnz opd) s = .next (s.jumpTo (literal opd)).retire := by
  rcases execJnz_cases opd s with ⟨-, e⟩ | ⟨h0, -⟩
  · exact e
  · exact absurd h0 h

theorem exec_jnz_of_eq_zero {s : State} (h : s.a.toInt = 0) (opd : TapeCell) :
    exec (.jnz opd) s = .next s.advance.retire := by
  rcases execJnz_cases opd s with ⟨hne, -⟩ | ⟨-, e⟩
  · exact absurd h hne
  · exact e

/-- Settles O17: the jump and the fall-through are the record updates of the statement. -/
theorem jnzJumpsUnlessAIsZero : Obligations.JnzJumpsUnlessAIsZero := by
  intro s opd
  exact ⟨rfl, fun h => ⟨literal opd, literal_toNat opd, exec_jnz_of_ne_zero h opd⟩,
    fun h => exec_jnz_of_eq_zero h opd⟩

/-! The step at an index given by its place on the tape (R94). -/

/-- At or past the end of the tape a running engine halts, whatever its budget (R93). -/
theorem step_of_len_le_pc {s : State} (hrun : s.runState = .running) (h : s.len ≤ s.pc.toNat) :
    step s = .next s.halt := by
  rw [step_of_running hrun, cycle, if_pos h]

/-- On the last cell of the tape a running engine with budget left has no operand cell to fetch (R90). -/
theorem step_of_pc_on_last_cell {s : State} (hrun : s.runState = .running)
    (hbudget : s.steps ≠ s.stepBound) (h : s.pc.toNat + 1 = s.len) :
    step s = .next (s.enterFault (.operandFetchPastEnd s.pc)) := by
  have onTape : ¬ s.len ≤ s.pc.toNat := by omega
  have noPair : s.fetchPair = none := by
    rcases fetchPair_cases s with ⟨hlt, -⟩ | ⟨-, e⟩
    · omega
    · exact e
  rw [step_of_running hrun, cycle, if_neg onTape, if_neg hbudget, fetchAndExecute, noPair]
  rfl

/-- The instruction at an index is what the two cells there decode to. -/
theorem decodePair_of_instrAt {s : State} {k : Nat} {i : Instr} (h : s.instrAt k = some i) :
    ∃ opc opd, s.memRead k = some opc ∧ s.memRead (k + 1) = some opd ∧
      decodePair opc opd = .ok i := by
  unfold State.instrAt at h
  split at h
  · next opc opd hopc hopd =>
    refine ⟨opc, opd, hopc, hopd, ?_⟩
    cases hd : decodePair opc opd <;> rw [hd] at h <;> cases h
    rfl
  · cases h

/-- A running engine with budget left executes the instruction at `pc`, even or odd (R58). -/
theorem step_of_instrAt {s : State} {i : Instr} (hrun : s.runState = .running)
    (hbudget : s.steps ≠ s.stepBound) (h : s.instrAt s.pc.toNat = some i) : step s = exec i s := by
  obtain ⟨opc, opd, hopc, hopd, hpair⟩ := decodePair_of_instrAt h
  exact step_eq_exec hrun hbudget hopc hopd hpair

/-- Settles O18: the taken jump changes `pc` and `STEPS` only, so the step after it is the step of a
running engine on the same tape with the target as its `pc`. -/
theorem jumpTargetsAtTheNextStep : Obligations.JumpTargetsAtTheNextStep := by
  intro s opd hrun hbudget ha hopc hopd
  have hpair : decodePair 3 opd = .ok (.jnz opd) := decodePair_eq_ok_iff.2 rfl
  have jumps : step s = .next (s.jumpTo (literal opd)).retire :=
    (step_eq_exec hrun hbudget hopc hopd hpair).trans (exec_jnz_of_ne_zero ha opd)
  have target : (s.jumpTo (literal opd)).retire.pc.toNat = opd.toNat := literal_toNat opd
  refine ⟨_, jumps, target, fun hend => ?_, fun hleft hlast => ?_, fun hleft i hi => ?_⟩
  · exact step_of_len_le_pc hrun (target ▸ hend)
  · exact step_of_pc_on_last_cell hrun hleft (target ▸ hlast)
  · exact step_of_instrAt hrun hleft (target ▸ hi)

end Sys2Proof.Machine

end

section
/-! Proofs. Output: what OUT appends, and that it writes no register (R80, R81). -/

namespace Sys2Proof.Machine

/-- Settles O20: a legal operand goes on to the append, an illegal one raises, and the frame of every
instruction says that OUT owns no register. -/
theorem outAppendsTheLowThreeBits : Obligations.OutAppendsTheLowThreeBits := by
  intro s opd
  refine ⟨fun n hn => ⟨low3 n, low3_toNat_eq_toInt_emod n, withCombo_of_some hn _⟩, fun hv => ?_,
    fun t ht => ?_, rfl⟩
  · exact exec_of_illegal_operand (i := .out opd) rfl hv s
  · obtain ⟨ha, hb, hc, -⟩ := everyInstructionKeepsItsFrame (.out opd) s t ht
    exact ⟨ha nofun, hb (by simp [Instr.opcode]), hc nofun⟩

end Sys2Proof.Machine

end

section
/-! Proofs. The end of a step: the halt, the faults, and the tests of a step in their order (R93, R94,
R96, R97). -/

namespace Sys2Proof.Machine

/-- Settles O28: the halt test is the first of a step, a fault ends in `Faulted`, and a completed
instruction leaves `RUNSTATE` as it is. -/
theorem haltsExactlyPastTheEnd : Obligations.HaltsExactlyPastTheEnd := by
  intro s hrun
  refine ⟨fun hend => step_of_len_le_pc hrun hend, fun t hstep hhalted => ?_⟩
  obtain ⟨-, hres⟩ := stepResult_of_step hstep
  cases hres with
  | halts hend => exact hend
  | faults c => cases hhalted
  | completes i t hpc hb hi hc =>
    rw [hc.runState, hrun] at hhalted
    cases hhalted

/-- Settles O30: of the three results of a step only the fault ends in `Faulted`. -/
theorem faultsArePrecise : Obligations.FaultsArePrecise := by
  intro s t hstep hfaulted
  obtain ⟨hrun, hres⟩ := stepResult_of_step hstep
  cases hres with
  | halts hend => cases hfaulted
  | faults c => exact ⟨c, rfl⟩
  | completes i t hpc hb hi hc =>
    rw [hc.runState, hrun] at hfaulted
    cases hfaulted

/-! The tests of a step (R94). -/

/-- On the tape with no budget left a running engine raises `StepBoundExceeded`, before any fetch
(R88). -/
theorem step_of_no_budget {s : State} (hrun : s.runState = .running) (hpc : s.pc.toNat < s.len)
    (hbudget : s.steps = s.stepBound) : step s = raise (.stepBoundExceeded s.pc) s := by
  rw [step_of_running hrun, cycle, if_neg (Nat.not_le.2 hpc), if_pos hbudget]

/-- A shift by a Combo operand that has a value raises `InvalidRegisterState` when `A` or the count is
negative (R65, R89). -/
theorem exec_shift_of_negative {i : Instr} {s : State} {n : Word}
    (hi : i.opcode ∈ [Opcode.adv, .bdv, .cdv]) (hn : combo s i.operand = some n)
    (hneg : s.a.toInt < 0 ∨ n.toInt < 0) : exec i s = raise (.invalidRegisterState s.a n) s := by
  cases i with
  | adv opd => exact divide_of_negative hn .a hneg
  | bdv opd => exact divide_of_negative hn .b hneg
  | cdv opd => exact divide_of_negative hn .c hneg
  | bxl opd | bst opd | jnz opd | bxc opd | out opd => simp [Instr.opcode] at hi

/-- An instruction with a legal operand that is no shift of a negative value or by a negative count
completes (R94, last row). -/
theorem exec_completes {i : Instr} {s : State} (hlegal : i.operandLegal = true)
    (hregs : i.opcode ∈ [Opcode.adv, .bdv, .cdv] →
      0 ≤ s.a.toInt ∧ ∀ n, combo s i.operand = some n → 0 ≤ n.toInt) :
    ∃ t, exec i s = .next t ∧ Completes i s t := by
  obtain ⟨t, hexec, heffect⟩ := exec_effect i s
  rcases heffect.completes_or_faults with hc | ⟨c, hraises, -⟩
  · exact ⟨t, hexec, hc⟩
  · cases hraises with
    | badOperand hm hv =>
      have := operand_le_of_operandLegal hlegal hm
      omega
    | badRegister n hi hn hneg =>
      obtain ⟨ha, hcount⟩ := hregs (by simpa using hi)
      have := hcount n hn
      omega

/-- Settles O29: the tests before the execution one by one, then the execution of the fetched
instruction. -/
theorem testsOfAStepInOrder : Obligations.TestsOfAStepInOrder := by
  intro s hrun
  refine ⟨fun hend => step_of_len_le_pc hrun hend, fun hpc hb => step_of_no_budget hrun hpc hb,
    fun hlast hb => step_of_pc_on_last_cell hrun hb hlast, fun opc opd hb hopc hopd =>
    ⟨fun hgt => step_of_illegal_opcode hrun hb hopc hopd hgt, fun i hdecode => ?_⟩⟩
  obtain ⟨hpair, -⟩ := decode_cons_cons_eq_ok_iff.1 hdecode
  obtain rfl : i.operand = opd := operand_of_decodePair hpair
  rw [step_eq_exec hrun hb hopc hopd hpair]
  refine ⟨fun hm hv => exec_of_illegal_operand hm hv s,
    fun n hi hn hneg => exec_shift_of_negative hi hn hneg, fun hlegal hregs => ?_⟩
  obtain ⟨t, hexec, hc⟩ := exec_completes hlegal hregs
  exact ⟨t, hexec, hc.runState.trans hrun, hc.cause, hc.steps⟩

end Sys2Proof.Machine

end

section
/-! Proofs. Whole runs: that they end, and what the bound does to them (R88, R100, R104). -/

namespace Sys2Proof.Machine

/-! The steps of a run (R114). -/

theorem exists_step_of_running {s : State} (h : s.runState = .running) : ∃ t, step s = .next t :=
  (stepAnswersExactlyWhenRunning s).1.1 h

theorem runFor_succ_of_step {s t : State} (h : step s = .next t) (k : Nat) :
    runFor (k + 1) s = runFor k t := by
  simp only [runFor, h]

/-- An ended run stays in its last state (R20). -/
theorem runFor_of_not_running {s : State} (h : s.runState ≠ .running) (k : Nat) :
    runFor k s = s := by
  cases k with
  | zero => rfl
  | succ k =>
    cases hstep : step s with
    | next t => exact absurd (transition_of_step hstep).1 h
    | fault r => simp only [runFor, hstep]
    | refused r => simp only [runFor, hstep]

@[simp] theorem runFor_halt (k : Nat) (s : State) : runFor k s.halt = s.halt :=
  runFor_of_not_running (s := s.halt) nofun k

@[simp] theorem runFor_enterFault (k : Nat) (s : State) (c : Cause) :
    runFor k (s.enterFault c) = s.enterFault c :=
  runFor_of_not_running (s := s.enterFault c) nofun k

theorem runFor_add (k m : Nat) (s : State) : runFor (k + m) s = runFor m (runFor k s) := by
  induction k generalizing s with
  | zero => rw [Nat.zero_add]; rfl
  | succ k ih =>
    by_cases hrun : s.runState = .running
    · obtain ⟨t, hstep⟩ := exists_step_of_running hrun
      rw [Nat.succ_add, runFor_succ_of_step hstep, runFor_succ_of_step hstep, ih]
    · simp only [runFor_of_not_running hrun]

/-- More calls of `Step()` than a run needs to end change nothing. -/
theorem runFor_of_le {k m : Nat} {s : State} (hend : (runFor k s).runState ≠ .running)
    (h : k ≤ m) : runFor m s = runFor k s := by
  obtain ⟨d, rfl⟩ := Nat.exists_eq_add_of_le h
  rw [runFor_add, runFor_of_not_running hend]

/-! The end of a run within its budget (R100). -/

/-- A run ends within more calls of `Step()` than it has budget left: a step ends it or uses up one of
its budget. -/
theorem runFor_ends {k : Nat} {s : State} (hle : s.steps.toNat ≤ s.stepBound.toNat)
    (hk : s.stepBound.toNat < s.steps.toNat + k) : (runFor k s).runState ≠ .running := by
  induction k generalizing s with
  | zero => omega
  | succ k ih =>
    by_cases hrun : s.runState = .running
    · obtain ⟨t, hstep⟩ := exists_step_of_running hrun
      rw [runFor_succ_of_step hstep]
      obtain ⟨-, hres⟩ := stepResult_of_step hstep
      cases hres with
      | halts hend => simp
      | faults c => simp
      | completes i t hpc hb hi hc =>
        obtain ⟨hsteps, hle'⟩ := toNat_steps_add_one hle hb
        exact ih (by rw [hc.steps, hc.stepBound]; omega) (by rw [hc.steps, hc.stepBound]; omega)
    · rwa [runFor_of_not_running hrun]

/-- Every launch ends (R114). -/
theorem finalState_launch_ends (cells : List TapeCell) (a0 b0 c0 : Word) (bound : U64) :
    (finalState (launch cells a0 b0 c0 bound)).runState ≠ .running :=
  runFor_ends (Nat.zero_le _) (by simp [launch])

/-- Settles O39: the calls of `Step()` are one more than the budget left. -/
theorem everyRunEndsWithinItsBudget : Obligations.EveryRunEndsWithinItsBudget :=
  ⟨fun _ hle => runFor_ends hle (by omega), finalState_launch_ends⟩

/-! The same run under a larger bound (R88, R104). -/

/-- The state with another `STEP_BOUND`. -/
def State.withStepBound (bound : U64) (s : State) : State := { s with stepBound := bound }

@[simp] theorem State.withStepBound_runState (bound : U64) (s : State) :
    (s.withStepBound bound).runState = s.runState := rfl

theorem launch_withStepBound (cells : List TapeCell) (a0 b0 c0 : Word) (bound bound' : U64) :
    (launch cells a0 b0 c0 bound).withStepBound bound' = launch cells a0 b0 c0 bound' := rfl

/-- No meaning reads `STEP_BOUND`: only the budget test does (R88). -/
theorem unread_stepBound (bound : U64) : Unread (State.withStepBound bound) where
  a _ := rfl
  b _ := rfl
  c _ := rfl
  pc _ := rfl
  runState _ := rfl
  len _ := rfl
  setReg _ r _ := by cases r <;> rfl
  outAppend _ _ := rfl
  advance _ := rfl
  jumpTo _ _ := rfl
  retire _ := rfl
  halt _ := rfl
  enterFault _ _ := rfl

/-- `STEPS` does not pass `STEP_BOUND` (R22). -/
theorem StepResult.steps_le_stepBound {s t : State} (h : StepResult s t)
    (hle : s.steps.toNat ≤ s.stepBound.toNat) : t.steps.toNat ≤ t.stepBound.toNat := by
  cases h with
  | halts | faults => exact hle
  | completes i t hpc hb hi hc =>
    rw [hc.steps, hc.stepBound]
    have := toNat_steps_add_one hle hb
    omega

section
variable {s : State} {bound : U64} (hle : s.steps.toNat ≤ s.stepBound.toNat)
  (hbound : s.stepBound.toNat ≤ bound.toNat)
include hle hbound

/-- A step that does not fault is the same under a larger bound: it halts before the budget test or
passes it under both bounds. -/
theorem step_withStepBound {t : State} (hstep : step s = .next t) (hfault : t.runState ≠ .faulted) :
    step (s.withStepBound bound) = .next (t.withStepBound bound) := by
  obtain ⟨hrun, hres⟩ := stepResult_of_step hstep
  cases hres with
  | halts hend => exact step_of_len_le_pc (s := s.withStepBound bound) hrun hend
  | faults c => exact absurd rfl hfault
  | completes i t hpc hb hi hc =>
    have hb' : s.steps ≠ bound := by bv_omega
    rw [step_unread (unread_stepBound bound) rfl (iff_of_false hb' hb), hstep, mapNext]

/-- A run that halts is the same, step by step, under a larger bound. -/
theorem runFor_withStepBound {k : Nat} (hhalted : (runFor k s).runState = .halted) :
    runFor k (s.withStepBound bound) = (runFor k s).withStepBound bound := by
  induction k generalizing s with
  | zero => rfl
  | succ k ih =>
    by_cases hrun : s.runState = .running
    · obtain ⟨t, hstep⟩ := exists_step_of_running hrun
      obtain ⟨-, hres⟩ := stepResult_of_step hstep
      obtain ⟨-, -, sameBound⟩ := hres.launch_constants
      rw [runFor_succ_of_step hstep] at hhalted ⊢
      have notFaulted : t.runState ≠ .faulted := fun hf => by
        rw [runFor_of_not_running (by simp [hf]), hf] at hhalted
        cases hhalted
      rw [runFor_succ_of_step (step_withStepBound hle hbound hstep notFaulted)]
      exact ih (hres.steps_le_stepBound hle) (sameBound ▸ hbound) hhalted
    · rw [runFor_of_not_running hrun, runFor_of_not_running (s := s.withStepBound bound) hrun]

end

/-- Settles O42: the run is the same up to its halt, and the further calls of `Step()` that the larger
bound allows change nothing. -/
theorem largerBoundGivesTheSameHalt : Obligations.LargerBoundGivesTheSameHalt := by
  intro cells a0 b0 c0 bound bound' hbound hhalted
  have sameRun : runFor (bound.toNat + 1) (launch cells a0 b0 c0 bound') =
      (finalState (launch cells a0 b0 c0 bound)).withStepBound bound' := by
    rw [← launch_withStepBound cells a0 b0 c0 bound bound']
    exact runFor_withStepBound (Nat.zero_le _) hbound hhalted
  calc finalState (launch cells a0 b0 c0 bound')
    _ = runFor (bound.toNat + 1) (launch cells a0 b0 c0 bound') :=
      runFor_of_le (by simp [sameRun, hhalted]) (Nat.succ_le_succ hbound)
    _ = (finalState (launch cells a0 b0 c0 bound)).withStepBound bound' := sameRun

end Sys2Proof.Machine

end

section
/-! Proofs. The two ends of the host interface: the state a launch starts from (R110) and the result
it delivers (R113, R115). -/

namespace Sys2Proof.Machine

/-! The start (R110). -/

/-- The tape of a launch reads as the listing, and past its end there is nothing (R36). -/
theorem memRead_launch (cells : List TapeCell) (a0 b0 c0 : Word) (bound : U64) (i : Nat) :
    (launch cells a0 b0 c0 bound).memRead i = cells[i]? := by
  by_cases h : i < cells.length
  · have hread := Memory.read_ofCellsFrom 0 i cells h
    rw [Nat.zero_add] at hread
    simp [State.memRead, launch, h, hread]
  · simp [State.memRead, launch, h]

/-- Settles O1: the fields are those of `launch`, and the stored tape reads as the listing. -/
theorem launchGivesTheInitialState : Obligations.LaunchGivesTheInitialState := by
  rintro cells a0 b0 c0 bound s rfl
  exact ⟨rfl, rfl, rfl, rfl, rfl, rfl, rfl, rfl, rfl, rfl, memRead_launch cells a0 b0 c0 bound⟩

/-! The end (R113, R115). -/

/-- What every step keeps holds at the end of a run if it holds at its start. -/
theorem runFor_keeps {P : State → Prop} (keeps : ∀ s t, P s → step s = .next t → P t)
    (k : Nat) {s : State} (h : P s) : P (runFor k s) := by
  induction k generalizing s with
  | zero => exact h
  | succ k ih =>
    by_cases hrun : s.runState = .running
    · obtain ⟨t, hstep⟩ := exists_step_of_running hrun
      rw [runFor_succ_of_step hstep]
      exact ih (keeps s t h hstep)
    · rwa [runFor_of_not_running hrun]

/-- A faulted state has a cause: the half of R21 that holds of tapes longer than `LEN_MAX` too. -/
def State.FaultHasCause (s : State) : Prop := s.runState = .faulted → ∃ c, s.cause = some c

theorem step_keeps_faultHasCause (s t : State) (_ : s.FaultHasCause) (hstep : step s = .next t) :
    t.FaultHasCause := by
  obtain ⟨hrun, hres⟩ := stepResult_of_step hstep
  cases hres with
  | halts => exact nofun
  | faults c => exact fun _ => ⟨c, rfl⟩
  | completes i t hpc hb hi hc =>
    intro hfaulted
    rw [hc.runState, hrun] at hfaulted
    cases hfaulted

theorem State.result_of_halted {s : State} (h : s.runState = .halted) :
    s.result = some (.ok s.out) := by
  simp [State.result, h]

theorem State.result_of_faulted {s : State} {c : Cause} (h : s.runState = .faulted)
    (hc : s.cause = some c) : s.result = some (.err c.name) := by
  simp [State.result, h, hc]

/-- Settles O40: the run has ended, and if it ended in a fault, the fault has left its cause. -/
theorem everyLaunchHasItsResult : Obligations.EveryLaunchHasItsResult := by
  rintro cells a0 b0 c0 bound f rfl
  have hcause : (finalState (launch cells a0 b0 c0 bound)).FaultHasCause :=
    runFor_keeps step_keeps_faultHasCause _ nofun
  cases hend : (finalState (launch cells a0 b0 c0 bound)).runState with
  | running => exact absurd hend (finalState_launch_ends cells a0 b0 c0 bound)
  | halted => exact .inl ⟨rfl, State.result_of_halted hend⟩
  | faulted =>
    obtain ⟨c, hc⟩ := hcause hend
    exact .inr ⟨rfl, c, hc, State.result_of_faulted hend hc⟩

/-- Settles O41: the run is a good one to its end, and so its only fault is the used-up budget. -/
theorem wellFormedLaunchEndsWellOrOutOfBudget :
    Obligations.WellFormedLaunchEndsWellOrOutOfBudget := by
  intro cells a0 b0 c0 bound htape ha hb hc
  have hgood : (finalState (launch cells a0 b0 c0 bound)).GoodRun :=
    runFor_keeps stepKeepsTheGoodRun _
      (wellFormedLaunchIsAGoodRun cells a0 b0 c0 bound htape ha hb hc)
  rcases everyLaunchHasItsResult cells a0 b0 c0 bound _ rfl with
    ⟨-, hresult⟩ | ⟨-, c, hcause, hresult⟩
  · exact .inl ⟨_, hresult⟩
  · exact .inr (by rw [hresult, hgood.cause c hcause])

end Sys2Proof.Machine

end
